-- ==== Sys2Proof/Word.lean ====
section
/-! DEFINITION. The widths of the machine: bytes, words, 12-bit addresses, register numbers (R6, R9, R15). -/

namespace Sys2Proof

/-- A byte: a V register, a timer, a cell of memory, the immediate `kk` (R15, R25, R28, R50). -/
abbrev Byte := BitVec 8

/-- A 16-bit word: `I`, `PC`, a stack slot, an instruction word (R19, R22, R23, R49). -/
abbrev Word := BitVec 16

/-- The 12-bit address immediate `nnn` (R50). -/
abbrev Addr := BitVec 12

/-- A register number 0..15: the fields `x` and `y` (R15, R50). -/
abbrev Reg := Fin 16

/-- The flag register VF (R16). -/
abbrev vF : Reg := 15

end Sys2Proof
end

