-- ==== Sys2Proof/Config.lean ====
section
/-! DEFINITION. What an implementation fixes: the sizes of R6, the parameters of R7 with their defaults, and the one
free value (the draw of RAND). -/

namespace Sys2Proof

/-- `MEM_SIZE` (R6). -/
abbrev memSize : Nat := 4096

/-- `PROGRAM_START` (R6). -/
abbrev programStart : Nat := 0x200

/-- `STACK_DEPTH` (R6). -/
abbrev stackDepth : Nat := 16

/-- `DISPLAY_W` (R6). -/
abbrev displayW : Nat := 64

/-- `DISPLAY_H` (R6). -/
abbrev displayH : Nat := 32

/-- The parameters the source leaves open (R7). A claim meant for every CHIP-8 variant holds for every value (R8). -/
structure Config where
  /-- `FONT_BASE`. -/
  fontBase : Addr
  /-- `GLYPH_BYTES`. -/
  glyphBytes : Nat
  /-- `FONT_DATA`: 16 glyphs, glyph 0 first, top row first. -/
  fontData : List Byte
  /-- `SHIFT_USES_VY` (D15). -/
  shiftUsesVy : Bool
  /-- `LOADSTORE_INCREMENTS_I` (D16). -/
  loadstoreIncrementsI : Bool
  /-- `LOGIC_RESETS_VF` (D18). -/
  logicResetsVf : Bool
deriving DecidableEq, Repr

/-- The conventional font of R29, five bytes a glyph. -/
def classicFont : List Byte :=
  [0xF0, 0x90, 0x90, 0x90, 0xF0] ++ [0x20, 0x60, 0x20, 0x20, 0x70] ++
  [0xF0, 0x10, 0xF0, 0x80, 0xF0] ++ [0xF0, 0x10, 0xF0, 0x10, 0xF0] ++
  [0x90, 0x90, 0xF0, 0x10, 0x10] ++ [0xF0, 0x80, 0xF0, 0x10, 0xF0] ++
  [0xF0, 0x80, 0xF0, 0x90, 0xF0] ++ [0xF0, 0x10, 0x20, 0x40, 0x40] ++
  [0xF0, 0x90, 0xF0, 0x90, 0xF0] ++ [0xF0, 0x90, 0xF0, 0x10, 0xF0] ++
  [0xF0, 0x90, 0xF0, 0x90, 0x90] ++ [0xE0, 0x90, 0xE0, 0x90, 0xE0] ++
  [0xF0, 0x80, 0x80, 0x80, 0xF0] ++ [0xE0, 0x90, 0x90, 0x90, 0xE0] ++
  [0xF0, 0x80, 0xF0, 0x80, 0xF0] ++ [0xF0, 0x80, 0xF0, 0x80, 0x80]

/-- The default column of R7. -/
def Config.default : Config where
  fontBase := 0x000
  glyphBytes := 5
  fontData := classicFont
  shiftUsesVy := false
  loadstoreIncrementsI := false
  logicResetsVf := false

/-- R7's condition on the parameters: the font has its 16 glyphs and lies in the reserved range 0x000..0x1FF. -/
def Config.wf (c : Config) : Bool :=
  c.fontData.length == 16 * c.glyphBytes && decide (c.fontBase.toNat + 16 * c.glyphBytes ≤ programStart)

/-- FREE VALUE (log entry 4): the k-th byte of the random source of RAND. R105 puts no law on a draw, and nothing can be
proved of this constant beyond that it is a byte. -/
opaque Config.freeDraw : Nat → Byte

end Sys2Proof
end

