-- ==== Sys2Proof/Syntax.lean ====
section
/-! DEFINITION. The instructions: one constructor per row of spec/opcode_table.json, the 35 rows of R53 in their order and
the fallback RAW of R56. Each carries exactly the fields of its format (R51, R59). -/

namespace Sys2Proof

/-- An instruction. A field out of range does not exist: `x`, `y`, `n` are below 16 and `kk`, `nnn` have their widths by
type (R60: "LD V16 does not exist", 95_test_vectors.md 2.1). The two ill-formed shapes are in WellFormed.lean. -/
inductive Instr where
  /-- `CLS`, 00E0. -/
  | cls
  /-- `RET`, 00EE. -/
  | ret
  /-- `SYS nnn`, 0nnn. -/
  | sys (nnn : Addr)
  /-- `JP nnn`, 1nnn. -/
  | jp (nnn : Addr)
  /-- `CALL nnn`, 2nnn. -/
  | call (nnn : Addr)
  /-- `SE Vx, kk`, 3xkk. -/
  | seVxKk (x : Reg) (kk : Byte)
  /-- `SNE Vx, kk`, 4xkk. -/
  | sneVxKk (x : Reg) (kk : Byte)
  /-- `SE Vx, Vy`, 5xy0. -/
  | seVxVy (x y : Reg)
  /-- `LD Vx, kk`, 6xkk. -/
  | ldVxKk (x : Reg) (kk : Byte)
  /-- `ADD Vx, kk`, 7xkk. -/
  | addVxKk (x : Reg) (kk : Byte)
  /-- `LD Vx, Vy`, 8xy0. -/
  | ldVxVy (x y : Reg)
  /-- `OR Vx, Vy`, 8xy1. -/
  | orVxVy (x y : Reg)
  /-- `AND Vx, Vy`, 8xy2. -/
  | andVxVy (x y : Reg)
  /-- `XOR Vx, Vy`, 8xy3. -/
  | xorVxVy (x y : Reg)
  /-- `ADD Vx, Vy`, 8xy4. -/
  | addVxVy (x y : Reg)
  /-- `SUB Vx, Vy`, 8xy5. -/
  | subVxVy (x y : Reg)
  /-- `SHR Vx, Vy`, 8xy6. -/
  | shrVxVy (x y : Reg)
  /-- `SUBN Vx, Vy`, 8xy7. -/
  | subnVxVy (x y : Reg)
  /-- `SHL Vx, Vy`, 8xyE. -/
  | shlVxVy (x y : Reg)
  /-- `SNE Vx, Vy`, 9xy0. -/
  | sneVxVy (x y : Reg)
  /-- `LD I, nnn`, Annn. -/
  | ldINnn (nnn : Addr)
  /-- `JP V0, nnn`, Bnnn. -/
  | jpV0 (nnn : Addr)
  /-- `RAND Vx, kk`, Cxkk. -/
  | rand (x : Reg) (kk : Byte)
  /-- `DRW Vx, Vy, n`, Dxyn. -/
  | drw (x y : Reg) (n : Fin 16)
  /-- `SKP Vx`, Ex9E. -/
  | skp (x : Reg)
  /-- `SKNP Vx`, ExA1. -/
  | sknp (x : Reg)
  /-- `LD Vx, DT`, Fx07. -/
  | ldVxDt (x : Reg)
  /-- `LD Vx, K`, Fx0A. -/
  | ldVxK (x : Reg)
  /-- `LD DT, Vx`, Fx15. -/
  | ldDtVx (x : Reg)
  /-- `LD ST, Vx`, Fx18. -/
  | ldStVx (x : Reg)
  /-- `ADD I, Vx`, Fx1E. -/
  | addIVx (x : Reg)
  /-- `LD F, Vx`, Fx29. -/
  | ldFVx (x : Reg)
  /-- `LD BCD, Vx`, Fx33. -/
  | ldBcdVx (x : Reg)
  /-- `LD I, Vx`, Fx55: store V0..Vx at I. -/
  | ldIVx (x : Reg)
  /-- `LD Vx, I`, Fx65: load V0..Vx from I. -/
  | ldVxI (x : Reg)
  /-- `RAW(w)`: a word that matches no row (R56). -/
  | raw (w : Word)
deriving DecidableEq, Repr

end Sys2Proof
end

