-- ==== Sys2Proof/WellFormed.lean ====
section
/-! DEFINITION. Which terms are instructions (R54, R56, R60). -/

namespace Sys2Proof

/-- The unmatched words of R56, group by group, as its table lists them. -/
def isRawWord (w : Word) : Bool :=
  let op := w.extractLsb' 12 4
  let n := w.extractLsb' 0 4
  let kk := w.extractLsb' 0 8
  (op == 0x5 && n != 0x0) ||
  (op == 0x8 && List.contains [0x8, 0x9, 0xA, 0xB, 0xC, 0xD, 0xF] n) ||
  (op == 0x9 && n != 0x0) ||
  (op == 0xE && !(List.contains [0x9E, 0xA1] kk)) ||
  (op == 0xF && !(List.contains [0x07, 0x0A, 0x15, 0x18, 0x1E, 0x29, 0x33, 0x55, 0x65] kk))

/-- A term is well formed unless it is `SYS 0x0E0` or `SYS 0x0EE`, whose words are CLS and RET (R54), or `RAW(w)` with `w`
a word of some row (R60). -/
def Instr.wellFormed : Instr → Bool
  | .cls => true
  | .ret => true
  | .sys nnn => nnn != 0x0E0 && nnn != 0x0EE
  | .jp _ => true
  | .call _ => true
  | .seVxKk _ _ => true
  | .sneVxKk _ _ => true
  | .seVxVy _ _ => true
  | .ldVxKk _ _ => true
  | .addVxKk _ _ => true
  | .ldVxVy _ _ => true
  | .orVxVy _ _ => true
  | .andVxVy _ _ => true
  | .xorVxVy _ _ => true
  | .addVxVy _ _ => true
  | .subVxVy _ _ => true
  | .shrVxVy _ _ => true
  | .subnVxVy _ _ => true
  | .shlVxVy _ _ => true
  | .sneVxVy _ _ => true
  | .ldINnn _ => true
  | .jpV0 _ => true
  | .rand _ _ => true
  | .drw _ _ _ => true
  | .skp _ => true
  | .sknp _ => true
  | .ldVxDt _ => true
  | .ldVxK _ => true
  | .ldDtVx _ => true
  | .ldStVx _ => true
  | .addIVx _ => true
  | .ldFVx _ => true
  | .ldBcdVx _ => true
  | .ldIVx _ => true
  | .ldVxI _ => true
  | .raw w => isRawWord w

end Sys2Proof
end

