-- ==== Sys2Proof/Decode.lean ====
section
/-! DEFINITION. The codec (30_encoding.md): the fields of a word (R50), decoding (R55, R58), the opcode table (R53) and
encoding (R51, R60). The bit patterns are the spec's table, adopted by its decision D3 (log entry 8). -/

namespace Sys2Proof

/-! ### The fields of a word (R50) -/

/-- A 4-bit field read as a number below 16. -/
def nibbleAt (w : Word) (lo : Nat) : Fin 16 := (w.extractLsb' lo 4).toFin

/-- `op = w[15:12]`. -/
def fieldOp (w : Word) : Fin 16 := nibbleAt w 12

/-- `x = w[11:8]`. -/
def fieldX (w : Word) : Reg := nibbleAt w 8

/-- `y = w[7:4]`. -/
def fieldY (w : Word) : Reg := nibbleAt w 4

/-- `n = w[3:0]`. -/
def fieldN (w : Word) : Fin 16 := nibbleAt w 0

/-- `kk = w[7:0]`. -/
def fieldKk (w : Word) : Byte := w.extractLsb' 0 8

/-- `nnn = w[11:0]`. -/
def fieldNnn (w : Word) : Addr := w.extractLsb' 0 12

/-! ### Decoding (R55, R58) -/

/-- Group 0: CLS and RET take precedence over SYS (R54). -/
def decodeGroup0 (w : Word) : Instr :=
  if w = 0x00E0 then .cls
  else if w = 0x00EE then .ret
  else .sys (fieldNnn w)

/-- Group 8: the last nibble selects. -/
def decodeGroup8 (w : Word) : Instr :=
  match fieldN w with
  | 0x0 => .ldVxVy (fieldX w) (fieldY w)
  | 0x1 => .orVxVy (fieldX w) (fieldY w)
  | 0x2 => .andVxVy (fieldX w) (fieldY w)
  | 0x3 => .xorVxVy (fieldX w) (fieldY w)
  | 0x4 => .addVxVy (fieldX w) (fieldY w)
  | 0x5 => .subVxVy (fieldX w) (fieldY w)
  | 0x6 => .shrVxVy (fieldX w) (fieldY w)
  | 0x7 => .subnVxVy (fieldX w) (fieldY w)
  | 0xE => .shlVxVy (fieldX w) (fieldY w)
  | _ => .raw w

/-- Group E: the last byte selects. -/
def decodeGroupE (w : Word) : Instr :=
  if fieldKk w = 0x9E then .skp (fieldX w)
  else if fieldKk w = 0xA1 then .sknp (fieldX w)
  else .raw w

/-- Group F: the last byte selects. -/
def decodeGroupF (w : Word) : Instr :=
  if fieldKk w = 0x07 then .ldVxDt (fieldX w)
  else if fieldKk w = 0x0A then .ldVxK (fieldX w)
  else if fieldKk w = 0x15 then .ldDtVx (fieldX w)
  else if fieldKk w = 0x18 then .ldStVx (fieldX w)
  else if fieldKk w = 0x1E then .addIVx (fieldX w)
  else if fieldKk w = 0x29 then .ldFVx (fieldX w)
  else if fieldKk w = 0x33 then .ldBcdVx (fieldX w)
  else if fieldKk w = 0x55 then .ldIVx (fieldX w)
  else if fieldKk w = 0x65 then .ldVxI (fieldX w)
  else .raw w

/-- The decoder, total on words: the first nibble selects the group (R55), and a word of no row is `RAW(w)` (R56, R58,
conflict C1). -/
def decode (w : Word) : Instr :=
  match fieldOp w with
  | 0x0 => decodeGroup0 w
  | 0x1 => .jp (fieldNnn w)
  | 0x2 => .call (fieldNnn w)
  | 0x3 => .seVxKk (fieldX w) (fieldKk w)
  | 0x4 => .sneVxKk (fieldX w) (fieldKk w)
  | 0x5 => if fieldN w = 0 then .seVxVy (fieldX w) (fieldY w) else .raw w
  | 0x6 => .ldVxKk (fieldX w) (fieldKk w)
  | 0x7 => .addVxKk (fieldX w) (fieldKk w)
  | 0x8 => decodeGroup8 w
  | 0x9 => if fieldN w = 0 then .sneVxVy (fieldX w) (fieldY w) else .raw w
  | 0xA => .ldINnn (fieldNnn w)
  | 0xB => .jpV0 (fieldNnn w)
  | 0xC => .rand (fieldX w) (fieldKk w)
  | 0xD => .drw (fieldX w) (fieldY w) (fieldN w)
  | 0xE => decodeGroupE w
  | _ => decodeGroupF w -- 0xF, the one value left

/-- Why a byte sequence gives no instruction word. -/
inductive DecodeError where
  /-- Fewer than two bytes are left: every instruction is one 16-bit word (R49). -/
  | truncated
deriving DecidableEq, Repr

/-- The big-endian word of two bytes, the byte at the lower address in bits 15:8 (R37). -/
def wordOfBytes (hi lo : Byte) : Word := hi ++ lo

/-- Decode the first instruction of a byte sequence, and the bytes after it. -/
def decodeBytes : List Byte → Except DecodeError (Instr × List Byte)
  | hi :: lo :: rest => .ok (decode (wordOfBytes hi lo), rest)
  | [_] => .error .truncated
  | [] => .error .truncated

/-! ### Encoding (R51, R60) -/

/-- A number below 16 as the four bits of a field. -/
def nibbleBits (f : Fin 16) : BitVec 4 := BitVec.ofFin f

/-- Format A: `oooo aaaa aaaa aaaa` (R51). -/
def formatA (op : BitVec 4) (nnn : Addr) : Word := op ++ nnn

/-- Format XK: `oooo xxxx kkkk kkkk` (R51). -/
def formatXK (op : BitVec 4) (x : Reg) (kk : Byte) : Word := op ++ nibbleBits x ++ kk

/-- Format XY and format XYN: `oooo xxxx yyyy ssss` (R51), the last nibble a sub-function or the height n. -/
def formatXY (op : BitVec 4) (x y : Reg) (s : BitVec 4) : Word := op ++ nibbleBits x ++ nibbleBits y ++ s

/-- The encoder: the word of an instruction. Only well-formed terms have an encoding (`encode?`, R60). -/
def encode : Instr → Word
  | .cls => 0x00E0
  | .ret => 0x00EE
  | .sys nnn => formatA 0x0 nnn
  | .jp nnn => formatA 0x1 nnn
  | .call nnn => formatA 0x2 nnn
  | .seVxKk x kk => formatXK 0x3 x kk
  | .sneVxKk x kk => formatXK 0x4 x kk
  | .seVxVy x y => formatXY 0x5 x y 0x0
  | .ldVxKk x kk => formatXK 0x6 x kk
  | .addVxKk x kk => formatXK 0x7 x kk
  | .ldVxVy x y => formatXY 0x8 x y 0x0
  | .orVxVy x y => formatXY 0x8 x y 0x1
  | .andVxVy x y => formatXY 0x8 x y 0x2
  | .xorVxVy x y => formatXY 0x8 x y 0x3
  | .addVxVy x y => formatXY 0x8 x y 0x4
  | .subVxVy x y => formatXY 0x8 x y 0x5
  | .shrVxVy x y => formatXY 0x8 x y 0x6
  | .subnVxVy x y => formatXY 0x8 x y 0x7
  | .shlVxVy x y => formatXY 0x8 x y 0xE
  | .sneVxVy x y => formatXY 0x9 x y 0x0
  | .ldINnn nnn => formatA 0xA nnn
  | .jpV0 nnn => formatA 0xB nnn
  | .rand x kk => formatXK 0xC x kk
  | .drw x y n => formatXY 0xD x y (nibbleBits n)
  | .skp x => formatXK 0xE x 0x9E
  | .sknp x => formatXK 0xE x 0xA1
  | .ldVxDt x => formatXK 0xF x 0x07
  | .ldVxK x => formatXK 0xF x 0x0A
  | .ldDtVx x => formatXK 0xF x 0x15
  | .ldStVx x => formatXK 0xF x 0x18
  | .addIVx x => formatXK 0xF x 0x1E
  | .ldFVx x => formatXK 0xF x 0x29
  | .ldBcdVx x => formatXK 0xF x 0x33
  | .ldIVx x => formatXK 0xF x 0x55
  | .ldVxI x => formatXK 0xF x 0x65
  | .raw w => w

/-- The encoding of a term, where it has one (R60). -/
def encode? (i : Instr) : Option Word := if i.wellFormed then some (encode i) else none

/-- The two bytes of a word, the high byte first (R37). -/
def bytesOfWord (w : Word) : List Byte := [w.extractLsb' 8 8, w.extractLsb' 0 8]

/-! ### The opcode map (R53) -/

/-- A row's `mask` and `match` columns, and how its fields are shifted into the word (R53, R60). -/
structure OpcodeRow where
  mask : Word
  value : Word
deriving DecidableEq, Repr

/-- The row of R53 an instruction belongs to; RAW has none. -/
def opcodeRow : Instr → Option OpcodeRow
  | .cls => some ⟨0xFFFF, 0x00E0⟩
  | .ret => some ⟨0xFFFF, 0x00EE⟩
  | .sys _ => some ⟨0xF000, 0x0000⟩
  | .jp _ => some ⟨0xF000, 0x1000⟩
  | .call _ => some ⟨0xF000, 0x2000⟩
  | .seVxKk _ _ => some ⟨0xF000, 0x3000⟩
  | .sneVxKk _ _ => some ⟨0xF000, 0x4000⟩
  | .seVxVy _ _ => some ⟨0xF00F, 0x5000⟩
  | .ldVxKk _ _ => some ⟨0xF000, 0x6000⟩
  | .addVxKk _ _ => some ⟨0xF000, 0x7000⟩
  | .ldVxVy _ _ => some ⟨0xF00F, 0x8000⟩
  | .orVxVy _ _ => some ⟨0xF00F, 0x8001⟩
  | .andVxVy _ _ => some ⟨0xF00F, 0x8002⟩
  | .xorVxVy _ _ => some ⟨0xF00F, 0x8003⟩
  | .addVxVy _ _ => some ⟨0xF00F, 0x8004⟩
  | .subVxVy _ _ => some ⟨0xF00F, 0x8005⟩
  | .shrVxVy _ _ => some ⟨0xF00F, 0x8006⟩
  | .subnVxVy _ _ => some ⟨0xF00F, 0x8007⟩
  | .shlVxVy _ _ => some ⟨0xF00F, 0x800E⟩
  | .sneVxVy _ _ => some ⟨0xF00F, 0x9000⟩
  | .ldINnn _ => some ⟨0xF000, 0xA000⟩
  | .jpV0 _ => some ⟨0xF000, 0xB000⟩
  | .rand _ _ => some ⟨0xF000, 0xC000⟩
  | .drw _ _ _ => some ⟨0xF000, 0xD000⟩
  | .skp _ => some ⟨0xF0FF, 0xE09E⟩
  | .sknp _ => some ⟨0xF0FF, 0xE0A1⟩
  | .ldVxDt _ => some ⟨0xF0FF, 0xF007⟩
  | .ldVxK _ => some ⟨0xF0FF, 0xF00A⟩
  | .ldDtVx _ => some ⟨0xF0FF, 0xF015⟩
  | .ldStVx _ => some ⟨0xF0FF, 0xF018⟩
  | .addIVx _ => some ⟨0xF0FF, 0xF01E⟩
  | .ldFVx _ => some ⟨0xF0FF, 0xF029⟩
  | .ldBcdVx _ => some ⟨0xF0FF, 0xF033⟩
  | .ldIVx _ => some ⟨0xF0FF, 0xF055⟩
  | .ldVxI _ => some ⟨0xF0FF, 0xF065⟩
  | .raw _ => none

/-- The fields of an instruction, each at its place in the word: `(x << 8) | (y << 4) | n`, `(x << 8) | kk` or `nnn`
(R60). A RAW word is all field. -/
def fieldBits : Instr → Word
  | .cls => 0
  | .ret => 0
  | .sys nnn | .jp nnn | .call nnn | .ldINnn nnn | .jpV0 nnn => nnn.setWidth 16
  | .seVxKk x kk | .sneVxKk x kk | .ldVxKk x kk | .addVxKk x kk | .rand x kk =>
      (BitVec.ofNat 16 x.val <<< 8) ||| kk.setWidth 16
  | .seVxVy x y | .ldVxVy x y | .orVxVy x y | .andVxVy x y | .xorVxVy x y | .addVxVy x y | .subVxVy x y
  | .shrVxVy x y | .subnVxVy x y | .shlVxVy x y | .sneVxVy x y =>
      (BitVec.ofNat 16 x.val <<< 8) ||| (BitVec.ofNat 16 y.val <<< 4)
  | .drw x y n => (BitVec.ofNat 16 x.val <<< 8) ||| (BitVec.ofNat 16 y.val <<< 4) ||| BitVec.ofNat 16 n.val
  | .skp x | .sknp x | .ldVxDt x | .ldVxK x | .ldDtVx x | .ldStVx x | .addIVx x | .ldFVx x | .ldBcdVx x
  | .ldIVx x | .ldVxI x => BitVec.ofNat 16 x.val <<< 8
  | .raw w => w

/-! ### The table's numbering -/

/-- The instruction the decoder reads from a word numbered as spec/opcode_table.json numbers it (bit 0 the least
significant bit): the word is laid out as its two big-endian bytes and decoded. Every instruction is 16 bits (R49), so a
number of 2^16 or more, or more than 16 bits, is no instruction. -/
def decodeTableWord (nbits w : Nat) : Option Instr :=
  if nbits ≤ 16 ∧ w < 65536 then
    match decodeBytes (bytesOfWord (BitVec.ofNat 16 w)) with
    | .ok (i, _) => some i
    | .error _ => none
  else none

end Sys2Proof
end

