-- ==== Sys2Proof/Machine/State.lean ====
section
/-! DEFINITION. The state of the machine (10_state.md), its value after reset (R33), and the reasons a step stops. -/

namespace Sys2Proof.Machine

/-- Memory: the bytes that differ from their reset contents, by strictly rising address (log entry 7). -/
abbrev Memory := List Host.Cell

/-- The framebuffer (R26): row y is entry y, and column x is its x-th bit from the left (log entry 12). -/
abbrev Framebuffer := Vector (BitVec 64) 32

/-- The faults of R120. `raise F(info)` of R12 carries one of them. -/
inductive Raise where
  /-- Executing SYS or RAW: code 1, not fatal. -/
  | unimplemented
  /-- A fetch with `PC` odd, below 0x200 or above 0xFFE: code 2. -/
  | pcInvalid (pc : Word)
  /-- CALL with 16 entries on the stack: code 3. -/
  | stackOverflow (sp : BitVec 5)
  /-- RET with an empty stack: code 4. -/
  | stackUnderflow (sp : BitVec 5)
  /-- A data byte access above 0xFFF: code 5. The address is the exact integer of R36. -/
  | memOutOfBounds (addr : Nat)
  /-- SKP or SKNP with Vx above 0xF: code 6. -/
  | keyIndexOutOfRange (k : Byte)
deriving DecidableEq, Repr

/-- Why a step stops the machine. The faults of R120 are no stops: their entry (R124, R125) is a next state (log entry 1). -/
inductive Fault where
  /-- Raised by CALL and RET in a state whose SP is above 16, where the pseudocode of R86 and R87 names a slot that does not
  exist. R23 says SP ranges over 0..16, so no run reaches it. SAFE (log entry 6). -/
  | noSuchStackSlot (sp : BitVec 5)
deriving DecidableEq, Repr

/-- Why a step has no meaning. -/
inductive Refusal where
  /-- Answered only by an arm of exec whose instruction has no meaning yet. No arm does. SAFE. -/
  | notModelled (mnemonic : String)
deriving DecidableEq, Repr

/-- The state. Field by field: INVENTORY.md, State. -/
structure State where
  /-- V0..VF (R15). -/
  v : Vector Byte 16
  /-- I (R22). -/
  i : Word
  /-- PC (R19). -/
  pc : Word
  /-- SP, the number of filled stack slots (R23, R24). -/
  sp : BitVec 5
  /-- The return-address slots (R23). A slot at or above SP keeps its stale value (R24). -/
  stack : Vector Word 16
  /-- The delay timer (R25). -/
  dt : Byte
  /-- The sound timer (R25). -/
  st : Byte
  /-- The pixels (R26). -/
  fb : Framebuffer
  /-- The keypad (R27): bit k is true while key k is pressed. -/
  keys : BitVec 16
  /-- Memory (R28). -/
  mem : Memory
  /-- A fatal fault has been taken (R30). -/
  halted : Bool
  /-- `fault_code`: the code of the last fault, 0 for none (R30, R120). -/
  faultCode : BitVec 3
  /-- `fault_pc`: the address of the instruction that faulted (R30). -/
  faultPc : Word
  /-- `fault_word`: its word, 0 when the fetch itself faulted (R30). -/
  faultWord : Word
  /-- `fault_info` (R30, R120). -/
  faultInfo : Word
  /-- `last_status`: the result of the last step, 0 Ok, 1 WaitKey, 2 Unimplemented, 3 Fault (R30). -/
  lastStatus : BitVec 2
  /-- MODEL'S OWN: the parameters of R7, never written (log entry 3). -/
  cfg : Config
  /-- MODEL'S OWN: the draw `r` of the next step (R69, R105), a free value (log entry 4). -/
  draw : Byte
  /-- MODEL'S OWN: how many free draws were taken (log entry 4). -/
  drawCount : Nat
deriving DecidableEq, Repr

/-- `last_status` 0. -/
abbrev statusOk : BitVec 2 := 0

/-- `last_status` 1. -/
abbrev statusWaitKey : BitVec 2 := 1

/-- `last_status` 2. -/
abbrev statusUnimplemented : BitVec 2 := 2

/-- `last_status` 3. -/
abbrev statusFault : BitVec 2 := 3

/-- Every piece of state as R33 and R30 give it, for the parameters `c`. Memory lists nothing: the font and the zeros of R33
are what an unlisted address reads as. -/
def State.resetFor (c : Config) (draw : Byte) (drawCount : Nat) : State where
  v := Vector.replicate 16 0
  i := 0
  pc := 0x200
  sp := 0
  stack := Vector.replicate 16 0
  dt := 0
  st := 0
  fb := Vector.replicate 32 0
  keys := 0
  mem := []
  halted := false
  faultCode := 0
  faultPc := 0
  faultWord := 0
  faultInfo := 0
  lastStatus := statusOk
  cfg := c
  draw := draw
  drawCount := drawCount

/-- The machine right after its first reset, at the default parameters of R7 (log entries 3, 4, 9). -/
def State.reset : State := State.resetFor Config.default (Config.freeDraw 0) 1

end Sys2Proof.Machine
end

