-- ==== Sys2Proof/Machine/Ops.lean ====
section
/-! DEFINITION. The named operations over registers, memory and the fault record: every read and write of State goes
through one of these. -/

namespace Sys2Proof.Machine

/-! ### V registers (R11, R15) -/

/-- `V[r]`. -/
def State.getV (s : State) (r : Reg) : Byte := s.v[r]

/-- `V[r] <- b`. -/
def State.setV (s : State) (r : Reg) (b : Byte) : State := { s with v := s.v.set r b }

/-- Write consecutive registers from number `k` on. A number above 15 names no register and is not written. -/
def State.setVs (s : State) (k : Nat) : List Byte → State
  | [] => s
  | b :: bs => if h : k < 16 then (s.setV ⟨k, h⟩ b).setVs (k + 1) bs else s

/-- `V[0] .. V[x]`. -/
def State.getVs (s : State) (x : Reg) : List Byte := s.v.toList.take (x.val + 1)

/-! ### Memory (R28, R34, R35) -/

/-- What an address nothing has written reads as: the reset contents of R33, the font at `FONT_BASE` and 0x00 elsewhere. -/
def unlistedByte (c : Config) (a : Nat) : Byte :=
  if c.fontBase.toNat ≤ a ∧ a < c.fontBase.toNat + 16 * c.glyphBytes then
    c.fontData.getD (a - c.fontBase.toNat) 0
  else 0

/-- The byte listed for an address. -/
def memLookup : Memory → Nat → Option Byte
  | [], _ => none
  | (k, b) :: m, a => if k = a then some b else memLookup m a

/-- The byte at an address. -/
def memRead (c : Config) (m : Memory) (a : Nat) : Byte := (memLookup m a).getD (unlistedByte c a)

/-- Put a byte into the list at its place. -/
def memInsert : Memory → Nat → Byte → Memory
  | [], a, b => [(a, b)]
  | (k, c) :: m, a, b =>
    if a < k then (a, b) :: (k, c) :: m
    else if a = k then (a, b) :: m
    else (k, c) :: memInsert m a b

/-- Take an address out of the list. -/
def memErase : Memory → Nat → Memory
  | [], _ => []
  | (k, c) :: m, a => if k = a then m else (k, c) :: memErase m a

/-- Write a byte. Writing what an unlisted address reads as takes the address out of the list. -/
def memWrite (c : Config) (m : Memory) (a : Nat) (b : Byte) : Memory :=
  if b = unlistedByte c a then memErase m a else memInsert m a b

/-- Every address of the list is above `lo`, strictly rising, and in memory, and no listed byte is what its address reads as
unlisted. -/
def memWfFrom (c : Config) : Nat → Memory → Bool
  | _, [] => true
  | lo, (k, b) :: m => decide (lo ≤ k) && decide (k < memSize) && b != unlistedByte c k && memWfFrom c (k + 1) m

/-- The canonical form of a memory. -/
def Memory.wf (c : Config) (m : Memory) : Bool := memWfFrom c 0 m

/-- The byte of memory at an address. Above 0xFFF nothing is stored; an access there faults (`loadByte`). -/
def State.readByte (s : State) (a : Nat) : Byte := memRead s.cfg s.mem a

/-- The bytes from an address on. -/
def State.readBytes (s : State) (a n : Nat) : List Byte := (List.range n).map fun k => s.readByte (a + k)

/-- A byte put into memory, with no check: the host's ROM load (R140) and `storeByte` use it. -/
def State.pokeByte (s : State) (a : Nat) (b : Byte) : State := { s with mem := memWrite s.cfg s.mem a b }

/-- Consecutive bytes put into memory, with no check. -/
def State.pokeBytes (s : State) (a : Nat) : List Byte → State
  | [] => s
  | b :: bs => (s.pokeByte a b).pokeBytes (a + 1) bs

/-- `MemRead(a, 1)` (R11, R35). -/
def State.loadByte (s : State) (a : Nat) : Except Raise Byte :=
  if a < memSize then .ok (s.readByte a) else .error (.memOutOfBounds a)

/-- `MemWrite(a, 1, b)` (R11, R35). -/
def State.storeByte (s : State) (a : Nat) (b : Byte) : Except Raise State :=
  if a < memSize then .ok (s.pokeByte a b) else .error (.memOutOfBounds a)

/-- `n` single-byte reads in increasing address order (R39); the first out of bounds raises (R123). -/
def State.loadBytes (s : State) (a : Nat) : Nat → Except Raise (List Byte)
  | 0 => .ok []
  | n + 1 =>
    match s.loadByte a with
    | .error e => .error e
    | .ok b =>
      match s.loadBytes (a + 1) n with
      | .error e => .error e
      | .ok bs => .ok (b :: bs)

/-- Single-byte writes in increasing address order (R39); the first out of bounds raises, and the writes before it are lost
with it (R12). -/
def State.storeBytes (s : State) (a : Nat) : List Byte → Except Raise State
  | [] => .ok s
  | b :: bs =>
    match s.storeByte a b with
    | .error e => .error e
    | .ok t => t.storeBytes (a + 1) bs

/-! ### The return-address stack (R23) -/

/-- `stack[k]`, for a slot that exists. -/
def State.stackSlot (s : State) (k : Fin 16) : Word := s.stack[k]

/-! ### Taking a fault (R120, R124, R125) -/

/-- `code(F)` (R120). -/
def Raise.code : Raise → BitVec 3
  | .unimplemented => 1
  | .pcInvalid _ => 2
  | .stackOverflow _ => 3
  | .stackUnderflow _ => 4
  | .memOutOfBounds _ => 5
  | .keyIndexOutOfRange _ => 6

/-- The `fault_info` column of R120. An out-of-bounds address is at most 0xFFFF (R30, conflict C8). -/
def Raise.info : Raise → Word
  | .unimplemented => 0
  | .pcInvalid pc => pc
  | .stackOverflow sp => sp.setWidth 16
  | .stackUnderflow sp => sp.setWidth 16
  | .memOutOfBounds addr => BitVec.ofNat 16 addr
  | .keyIndexOutOfRange k => k.setWidth 16

/-- The fatal column of R120. -/
def Raise.fatal : Raise → Bool
  | .unimplemented => false
  | .pcInvalid _ => true
  | .stackOverflow _ => true
  | .stackUnderflow _ => true
  | .memOutOfBounds _ => true
  | .keyIndexOutOfRange _ => true

/-- Record a fault raised by the step that began at `pc0` with word `w` (R125), in the state before that step (R124). -/
def State.takeFault (s : State) (e : Raise) (pc0 w : Word) : State :=
  { s with
    faultCode := e.code
    faultPc := pc0
    faultWord := w
    faultInfo := e.info
    lastStatus := if e.fatal then statusFault else statusUnimplemented
    halted := s.halted || e.fatal }

/-! ### The ends of an instruction

An instruction runs after the fetch, so in it `PC = pc0 + 2` (R72), and its word is its encoding (R61, log entry 2). -/

/-- `pc0`, the address of the executing instruction. -/
def State.pc0 (s : State) : Word := s.pc - 2

/-- The state before the step: the fetch changed only PC (R73). -/
def State.unfetch (s : State) : State := { s with pc := s.pc0 }

/-- The end of a step that does not fault (R125). -/
def State.withStatus (s : State) (status : BitVec 2) : State := { s with lastStatus := status }

/-- `return Ok`. -/
def retire (s : State) : Host.Outcome State Fault Refusal := .next (s.withStatus statusOk)

/-- `raise F`: every write of the step is discarded, the fetch's among them (R12), and the fault is recorded. `s` is the
state right after the fetch of `i`. -/
def raiseFault (i : Instr) (s : State) (e : Raise) : Host.Outcome State Fault Refusal :=
  .next (s.unfetch.takeFault e s.pc0 (encode i))

/-- The end of an instruction that may raise: `s` is the state right after its fetch. -/
def conclude (i : Instr) (s : State) : Except Raise State → Host.Outcome State Fault Refusal
  | .ok t => retire t
  | .error e => raiseFault i s e

/-! ### Fetch (R71, R73) -/

/-- `PC` is a valid fetch address: even, in 0x200..0xFFE (R20). -/
def State.fetchable (s : State) : Bool :=
  !s.pc.getLsbD 0 && decide (0x200 ≤ s.pc.toNat) && decide (s.pc.toNat ≤ 0xFFE)

/-- The word at `PC`, big-endian (R37). -/
def State.fetchWord (s : State) : Word := wordOfBytes (s.readByte s.pc.toNat) (s.readByte (s.pc.toNat + 1))

/-- `PC <- PC + 2`. -/
def State.advance (s : State) : State := { s with pc := s.pc + 2 }

/-- The fetch: the word, and the state with `PC` past it. -/
def State.fetch (s : State) : Except Raise (Word × State) :=
  if s.fetchable then .ok (s.fetchWord, s.advance) else .error (.pcInvalid s.pc)

/-- The fetch itself faults: nothing was written, and the word recorded is 0 (R125). -/
def fetchFault (s : State) (e : Raise) : Host.Outcome State Fault Refusal := .next (s.takeFault e s.pc 0)

/-- `s` with the word `w` stored where the next step fetches, so that it fetches and runs it: a halted machine runs again
and a `PC` no fetch accepts becomes 0x200 (log entry 11). -/
def State.placeWord (s : State) (w : Word) : State :=
  let t : State := { s with halted := false, pc := if s.fetchable then s.pc else 0x200 }
  t.pokeBytes t.pc.toNat (bytesOfWord w)

end Sys2Proof.Machine
end

