-- ==== Sys2Proof/Machine/Operands.lean ====
section
/-! DEFINITION. The operand forms (R50, R52, 44_index_memory.md Addressing): what each reads, and the values computed from
one operand. -/

namespace Sys2Proof.Machine

/-- `zext_16(nnn)` (R52). -/
def zextAddr (nnn : Addr) : Word := nnn.setWidth 16

/-- `zext_16(b)` (R9). -/
def zextByte (b : Byte) : Word := b.setWidth 16

/-- The address of the k-th byte of an access through `I`: the exact integer `I + k` (R36). -/
def State.indexAddr (s : State) (k : Nat) : Nat := s.i.toNat + k

/-- The register SHR and SHL shift: Vy when `SHIFT_USES_VY`, else Vx (R103, R104). -/
def State.shiftSource (s : State) (x y : Reg) : Byte := if s.cfg.shiftUsesVy then s.getV y else s.getV x

/-- `FONT_BASE + GLYPH_BYTES * (b & 0xF)` (R108). -/
def fontAddr (c : Config) (b : Byte) : Word := BitVec.ofNat 16 (c.fontBase.toNat + c.glyphBytes * (b &&& 0xF).toNat)

/-- The decimal digits of a byte, hundreds first (R109). -/
def bcdDigits (b : Byte) : List Byte :=
  [BitVec.ofNat 8 (b.toNat / 100), BitVec.ofNat 8 (b.toNat / 10 % 10), BitVec.ofNat 8 (b.toNat % 10)]

/-- `I` after Fx55 and Fx65: `(I + x + 1) mod 65536` when `LOADSTORE_INCREMENTS_I`, else unchanged (R110, R111). -/
def State.stepIndex (s : State) (x : Reg) : State :=
  if s.cfg.loadstoreIncrementsI then { s with i := s.i + BitVec.ofNat 16 (x.val + 1) } else s

/-- The smallest pressed key (R119). -/
def lowestKey (keys : BitVec 16) : Option Nat := (List.range 16).find? fun k => keys.getLsbD k

/-- A taken skip: `PC <- PC + 2` (42_skips.md). -/
def State.skipIf (s : State) (cond : Bool) : State := if cond then s.advance else s

end Sys2Proof.Machine
end

