-- ==== Sys2Proof/Machine/Flags.lean ====
section
/-! DEFINITION. The values written to VF as a flag, and the order of result and flag (R16, R78, R93). -/

namespace Sys2Proof.Machine

/-- A flag as VF holds it: exactly 0 or 1 (R16). -/
def flagByte (f : Bool) : Byte := if f then 1 else 0

/-- Carry out of bit 7: `a + b > 255` (R100). -/
def carryOut (a b : Byte) : Bool := decide (a.toNat + b.toNat > 255)

/-- No borrow in `a - b`: `a >= b` (R101, R102). -/
def noBorrow (a b : Byte) : Bool := decide (a.toNat ≥ b.toNat)

/-- The bit SHR shifts out (R103). -/
def bitOutRight (a : Byte) : Bool := a.getLsbD 0

/-- The bit SHL shifts out (R104). -/
def bitOutLeft (a : Byte) : Bool := a.getLsbD 7

/-- Write a result and then the flag: with x = 0xF the flag overwrites the result (R78). -/
def State.setResultAndFlag (s : State) (x : Reg) (result : Byte) (f : Bool) : State :=
  (s.setV x result).setV vF (flagByte f)

/-- `if LOGIC_RESETS_VF: V[0xF] <- 0` (R97). -/
def State.logicFlag (s : State) : State := if s.cfg.logicResetsVf then s.setV vF 0 else s

end Sys2Proof.Machine
end

