-- ==== Sys2Proof/Machine/Alu.lean ====
section
/-! DEFINITION. Register loads, arithmetic, logic, shifts and RAND (43_register_alu.md). Byte arithmetic wraps modulo 256
(R93). -/

namespace Sys2Proof.Machine

/-- `LD Vx, kk` (R94). -/
def execLdVxKk (x : Reg) (kk : Byte) (s : State) : Host.Outcome State Fault Refusal := retire (s.setV x kk)

/-- `ADD Vx, kk` (R95): no flag (D17). -/
def execAddVxKk (x : Reg) (kk : Byte) (s : State) : Host.Outcome State Fault Refusal :=
  retire (s.setV x (s.getV x + kk))

/-- `LD Vx, Vy` (R96). -/
def execLdVxVy (x y : Reg) (s : State) : Host.Outcome State Fault Refusal := retire (s.setV x (s.getV y))

/-- `OR Vx, Vy` (R97). -/
def execOr (x y : Reg) (s : State) : Host.Outcome State Fault Refusal :=
  retire (s.setV x (s.getV x ||| s.getV y)).logicFlag

/-- `AND Vx, Vy` (R98). -/
def execAnd (x y : Reg) (s : State) : Host.Outcome State Fault Refusal :=
  retire (s.setV x (s.getV x &&& s.getV y)).logicFlag

/-- `XOR Vx, Vy` (R99). -/
def execXor (x y : Reg) (s : State) : Host.Outcome State Fault Refusal :=
  retire (s.setV x (s.getV x ^^^ s.getV y)).logicFlag

/-- `ADD Vx, Vy` (R100). -/
def execAddVxVy (x y : Reg) (s : State) : Host.Outcome State Fault Refusal :=
  let a := s.getV x
  let b := s.getV y
  retire (s.setResultAndFlag x (a + b) (carryOut a b))

/-- `SUB Vx, Vy` (R101). -/
def execSub (x y : Reg) (s : State) : Host.Outcome State Fault Refusal :=
  let a := s.getV x
  let b := s.getV y
  retire (s.setResultAndFlag x (a - b) (noBorrow a b))

/-- `SUBN Vx, Vy` (R102). -/
def execSubn (x y : Reg) (s : State) : Host.Outcome State Fault Refusal :=
  let a := s.getV x
  let b := s.getV y
  retire (s.setResultAndFlag x (b - a) (noBorrow b a))

/-- `SHR Vx, Vy` (R103). -/
def execShr (x y : Reg) (s : State) : Host.Outcome State Fault Refusal :=
  let src := s.shiftSource x y
  retire (s.setResultAndFlag x (src >>> 1) (bitOutRight src))

/-- `SHL Vx, Vy` (R104). -/
def execShl (x y : Reg) (s : State) : Host.Outcome State Fault Refusal :=
  let src := s.shiftSource x y
  retire (s.setResultAndFlag x (src <<< 1) (bitOutLeft src))

/-- Take the draw of this step; the next one is a fresh free value (log entry 4). -/
def State.nextDraw (s : State) : State :=
  { s with draw := Config.freeDraw s.drawCount, drawCount := s.drawCount + 1 }

/-- `RAND Vx, kk` (R105): the draw under the mask. -/
def execRand (x : Reg) (kk : Byte) (s : State) : Host.Outcome State Fault Refusal :=
  retire (s.setV x (s.draw &&& kk)).nextDraw

end Sys2Proof.Machine
end

