-- ==== Sys2Proof/Machine/Control.lean ====
section
/-! DEFINITION. Control transfer (41_control_flow.md) and RAW (R76). Every meaning runs after the fetch: `s.pc` is
`pc0 + 2`. -/

namespace Sys2Proof.Machine

/-- `PC <- target`. -/
def State.jumpTo (s : State) (target : Word) : State := { s with pc := target }

/-- `SYS nnn` raises Unimplemented (R84, D5). -/
def execSys (nnn : Addr) (s : State) : Host.Outcome State Fault Refusal := raiseFault (.sys nnn) s .unimplemented

/-- `RAW(w)` raises Unimplemented (R76). -/
def execRaw (w : Word) (s : State) : Host.Outcome State Fault Refusal := raiseFault (.raw w) s .unimplemented

/-- `JP nnn` (R85). -/
def execJp (nnn : Addr) (s : State) : Host.Outcome State Fault Refusal := retire (s.jumpTo (zextAddr nnn))

/-- `JP V0, nnn` (R88): the sum is not reduced. -/
def execJpV0 (nnn : Addr) (s : State) : Host.Outcome State Fault Refusal :=
  retire (s.jumpTo (zextAddr nnn + zextByte (s.getV 0)))

/-- `CALL nnn` (R86). SP above 16 is no state of the spec (R23, log entry 6). -/
def execCall (nnn : Addr) (s : State) : Host.Outcome State Fault Refusal :=
  if h : s.sp.toNat < 16 then
    retire ({ s with stack := s.stack.set s.sp.toNat s.pc, sp := s.sp + 1 }.jumpTo (zextAddr nnn))
  else if s.sp.toNat = 16 then raiseFault (.call nnn) s (.stackOverflow s.sp)
  else .fault (.noSuchStackSlot s.sp)

/-- `RET` (R87). SP above 16 is no state of the spec (R23, log entry 6). -/
def execRet (s : State) : Host.Outcome State Fault Refusal :=
  if s.sp.toNat = 0 then raiseFault .ret s (.stackUnderflow s.sp)
  else if h : s.sp.toNat - 1 < 16 then retire ({ s with sp := s.sp - 1 }.jumpTo (s.stackSlot ⟨s.sp.toNat - 1, h⟩))
  else .fault (.noSuchStackSlot s.sp)

end Sys2Proof.Machine
end

