-- ==== Sys2Proof/Machine/Display.lean ====
section
/-! DEFINITION. The display (45_display.md). A framebuffer row is drawn as one 64-bit word; `drawByPixel` is the double loop
of R113's pseudocode, kept to compare the two. -/

namespace Sys2Proof.Machine

/-- `fb[y][x]` (R26). A position off the display has no pixel and reads as unset. -/
def pixel (fb : Framebuffer) (x y : Nat) : Bool := if h : y < 32 then fb[y].getMsbD x else false

/-- The bits of a sprite row on the display row, its bit 7 at column `cx` (D21): columns at or past 64 fall off (R113,
clipping). -/
def spriteRow (b : Byte) (cx : Nat) : BitVec 64 := (b ++ (0 : BitVec 56)) >>> cx

/-- XOR the sprite rows onto the framebuffer from display row `py` down, and whether a set pixel was erased. Rows at or past
32 are clipped. -/
def drawRows (cx : Nat) : Nat → List Byte → Framebuffer × Bool → Framebuffer × Bool
  | _, [], acc => acc
  | py, b :: bs, (fb, erased) =>
    if h : py < 32 then
      drawRows cx (py + 1) bs (fb.set py (fb[py] ^^^ spriteRow b cx), erased || fb[py] &&& spriteRow b cx != 0)
    else drawRows cx (py + 1) bs (fb, erased)

/-- `fb[py][px] <- fb[py][px] ^ 1`. -/
def togglePixel (fb : Framebuffer) (px py : Nat) : Framebuffer :=
  if h : py < 32 then fb.set py (fb[py] ^^^ BitVec.twoPow 64 (63 - px)) else fb

/-- The body of R113's inner loop: column `c` of the sprite row `b`. -/
def drawColumn (b : Byte) (cx py : Nat) (acc : Framebuffer × Bool) (c : Nat) : Framebuffer × Bool :=
  if cx + c < 64 ∧ py < 32 ∧ b.getLsbD (7 - c) then
    (togglePixel acc.1 (cx + c) py, acc.2 || pixel acc.1 (cx + c) py)
  else acc

/-- R113's double loop, pixel by pixel. -/
def drawByPixel (cx : Nat) : Nat → List Byte → Framebuffer × Bool → Framebuffer × Bool
  | _, [], acc => acc
  | py, b :: bs, acc => drawByPixel cx (py + 1) bs ((List.range 8).foldl (drawColumn b cx py) acc)

/-- `CLS` (R112). -/
def execCls (s : State) : Host.Outcome State Fault Refusal := retire { s with fb := Vector.replicate 32 0 }

/-- `DRW Vx, Vy, n` (R113): all rows are read before any pixel changes, and VF is written last. -/
def execDrw (x y : Reg) (n : Fin 16) (s : State) : Host.Outcome State Fault Refusal :=
  conclude (.drw x y n) s ((s.loadBytes (s.indexAddr 0) n.val).map fun rows =>
    let drawn := drawRows (s.getV x).toNat (s.getV y).toNat rows (s.fb, false)
    { s with fb := drawn.1 }.setV vF (flagByte drawn.2))

end Sys2Proof.Machine
end

