-- ==== Sys2Proof/Machine/IndexMemory.lean ====
section
/-! DEFINITION. The index register and memory transfers (44_index_memory.md). -/

namespace Sys2Proof.Machine

/-- `I <- w`. -/
def State.setIndex (s : State) (w : Word) : State := { s with i := w }

/-- `LD I, nnn` (R106). -/
def execLdINnn (nnn : Addr) (s : State) : Host.Outcome State Fault Refusal := retire (s.setIndex (zextAddr nnn))

/-- `ADD I, Vx` (R107): modulo 65536, no flag (D17). -/
def execAddIVx (x : Reg) (s : State) : Host.Outcome State Fault Refusal :=
  retire (s.setIndex (s.i + zextByte (s.getV x)))

/-- `LD F, Vx` (R108). -/
def execLdFVx (x : Reg) (s : State) : Host.Outcome State Fault Refusal :=
  retire (s.setIndex (fontAddr s.cfg (s.getV x)))

/-- `LD BCD, Vx` (R109). -/
def execLdBcdVx (x : Reg) (s : State) : Host.Outcome State Fault Refusal :=
  conclude (.ldBcdVx x) s (s.storeBytes (s.indexAddr 0) (bcdDigits (s.getV x)))

/-- `LD I, Vx`, Fx55 (R110): store V0..Vx at I. -/
def execLdIVx (x : Reg) (s : State) : Host.Outcome State Fault Refusal :=
  conclude (.ldIVx x) s ((s.storeBytes (s.indexAddr 0) (s.getVs x)).map fun t => t.stepIndex x)

/-- `LD Vx, I`, Fx65 (R111): load V0..Vx from I. -/
def execLdVxI (x : Reg) (s : State) : Host.Outcome State Fault Refusal :=
  conclude (.ldVxI x) s ((s.loadBytes (s.indexAddr 0) (x.val + 1)).map fun bs => (s.setVs 0 bs).stepIndex x)

end Sys2Proof.Machine
end

