-- ==== Sys2Proof/Machine/Skips.lean ====
section
/-! DEFINITION. Conditional skips on registers (42_skips.md). -/

namespace Sys2Proof.Machine

/-- `SE Vx, kk` (R89). -/
def execSeVxKk (x : Reg) (kk : Byte) (s : State) : Host.Outcome State Fault Refusal :=
  retire (s.skipIf (s.getV x == kk))

/-- `SNE Vx, kk` (R90). -/
def execSneVxKk (x : Reg) (kk : Byte) (s : State) : Host.Outcome State Fault Refusal :=
  retire (s.skipIf (s.getV x != kk))

/-- `SE Vx, Vy` (R91). -/
def execSeVxVy (x y : Reg) (s : State) : Host.Outcome State Fault Refusal :=
  retire (s.skipIf (s.getV x == s.getV y))

/-- `SNE Vx, Vy` (R92). -/
def execSneVxVy (x y : Reg) (s : State) : Host.Outcome State Fault Refusal :=
  retire (s.skipIf (s.getV x != s.getV y))

end Sys2Proof.Machine
end

