-- ==== Sys2Proof/Machine/TimersKeypad.lean ====
section
/-! DEFINITION. Timers and keypad (46_timers_keypad.md). -/

namespace Sys2Proof.Machine

/-- `LD Vx, DT` (R114). -/
def execLdVxDt (x : Reg) (s : State) : Host.Outcome State Fault Refusal := retire (s.setV x s.dt)

/-- `LD DT, Vx` (R115). -/
def execLdDtVx (x : Reg) (s : State) : Host.Outcome State Fault Refusal := retire { s with dt := s.getV x }

/-- `LD ST, Vx` (R116). -/
def execLdStVx (x : Reg) (s : State) : Host.Outcome State Fault Refusal := retire { s with st := s.getV x }

/-- A skip on a key: a key number above 0xF raises (D23). -/
def State.skipOnKey (s : State) (k : Byte) (pressed : Bool) : Except Raise State :=
  if k.toNat > 15 then .error (.keyIndexOutOfRange k) else .ok (s.skipIf (s.keys.getLsbD k.toNat == pressed))

/-- `SKP Vx` (R117). -/
def execSkp (x : Reg) (s : State) : Host.Outcome State Fault Refusal :=
  conclude (.skp x) s (s.skipOnKey (s.getV x) true)

/-- `SKNP Vx` (R118). -/
def execSknp (x : Reg) (s : State) : Host.Outcome State Fault Refusal :=
  conclude (.sknp x) s (s.skipOnKey (s.getV x) false)

/-- `LD Vx, K` (R119): the lowest pressed key, or wait in place with result WaitKey. -/
def execLdVxK (x : Reg) (s : State) : Host.Outcome State Fault Refusal :=
  match lowestKey s.keys with
  | some k => retire (s.setV x (BitVec.ofNat 8 k))
  | none => .next (s.unfetch.withStatus statusWaitKey)

end Sys2Proof.Machine
end

