-- ==== Sys2Proof/Machine/Cycle.lean ====
section
/-! DEFINITION. One fetch-decode-execute cycle (R71). -/

namespace Sys2Proof.Machine

/-- `step(r)` with `r` the state's draw: a halted machine changes nothing and reports its fault again (R79); a `PC` no fetch
accepts faults (R73); otherwise the fetched word is decoded and executed with `PC` past it (R72, R74, R75). The result of
the step (R70) is in the status registers of the next state (log entry 1). -/
def cycle (s : State) : Host.Outcome State Fault Refusal :=
  if s.halted then .next s
  else
    match s.fetch with
    | .error e => fetchFault s e
    | .ok (w, t) => exec (decode w) t

end Sys2Proof.Machine
end

