-- ==== Sys2Proof/Machine/Step.lean ====
section
/-! DEFINITION. The step function, and the placing of one instruction where it fetches. -/

namespace Sys2Proof.Machine

/-- One step (R71). -/
def step (s : State) : Host.Outcome State Fault Refusal := cycle s

/-- `s` with the instruction whose bits are `w`, numbered as spec/opcode_table.json numbers them, stored where the next step
fetches. Every instruction is one 16-bit word (R49), so its bits are `w` modulo 2^16 however few bits a row lists. -/
def State.withFetchWord (s : State) (_nbits w : Nat) : State := s.placeWord (BitVec.ofNat 16 w)

end Sys2Proof.Machine
end

