-- ==== Sys2Proof/Assembly.lean ====
section
/-! DEFINITION. The canonical written form of an instruction (R63) and of a ROM (R68). The assembler and the disassembler
are software outside the block (R5, D34): this is the spec's notation only, and the machine does not use it. -/

namespace Sys2Proof

/-- The operand kinds of R63. -/
inductive AsmOperand where
  /-- A register `V0`..`VF`. -/
  | reg (r : Reg)
  /-- A byte 0..255, written `0x` and two hex digits. -/
  | byte (b : Byte)
  /-- A nibble 0..15, written in decimal. -/
  | nibble (n : Fin 16)
  /-- An address 0..0xFFF, written `0x` and three hex digits. -/
  | addr (a : Addr)
  /-- A special operand name: `F`, `BCD`, `DT`, `I`, `K`, `ST` (R62). -/
  | special (name : String)
deriving DecidableEq, Repr

/-- A line of assembly text. -/
inductive AsmLine where
  /-- A mnemonic and its operands, the destination first (R63). -/
  | instr (mnemonic : String) (operands : List AsmOperand)
  /-- A raw-byte directive (R66). -/
  | rawByte (b : Byte)
deriving DecidableEq, Repr

/-- The canonical form of R63; `RAW(w)` is two raw bytes (R68). -/
def asmLines : Instr → List AsmLine
  | .cls => [.instr "CLS" []]
  | .ret => [.instr "RET" []]
  | .sys a => [.instr "SYS" [.addr a]]
  | .jp a => [.instr "JP" [.addr a]]
  | .call a => [.instr "CALL" [.addr a]]
  | .seVxKk x k => [.instr "SE" [.reg x, .byte k]]
  | .sneVxKk x k => [.instr "SNE" [.reg x, .byte k]]
  | .seVxVy x y => [.instr "SE" [.reg x, .reg y]]
  | .ldVxKk x k => [.instr "LD" [.reg x, .byte k]]
  | .addVxKk x k => [.instr "ADD" [.reg x, .byte k]]
  | .ldVxVy x y => [.instr "LD" [.reg x, .reg y]]
  | .orVxVy x y => [.instr "OR" [.reg x, .reg y]]
  | .andVxVy x y => [.instr "AND" [.reg x, .reg y]]
  | .xorVxVy x y => [.instr "XOR" [.reg x, .reg y]]
  | .addVxVy x y => [.instr "ADD" [.reg x, .reg y]]
  | .subVxVy x y => [.instr "SUB" [.reg x, .reg y]]
  | .shrVxVy x y => [.instr "SHR" [.reg x, .reg y]]
  | .subnVxVy x y => [.instr "SUBN" [.reg x, .reg y]]
  | .shlVxVy x y => [.instr "SHL" [.reg x, .reg y]]
  | .sneVxVy x y => [.instr "SNE" [.reg x, .reg y]]
  | .ldINnn a => [.instr "LD" [.special "I", .addr a]]
  | .jpV0 a => [.instr "JP" [.reg 0, .addr a]]
  | .rand x k => [.instr "RAND" [.reg x, .byte k]]
  | .drw x y n => [.instr "DRW" [.reg x, .reg y, .nibble n]]
  | .skp x => [.instr "SKP" [.reg x]]
  | .sknp x => [.instr "SKNP" [.reg x]]
  | .ldVxDt x => [.instr "LD" [.reg x, .special "DT"]]
  | .ldVxK x => [.instr "LD" [.reg x, .special "K"]]
  | .ldDtVx x => [.instr "LD" [.special "DT", .reg x]]
  | .ldStVx x => [.instr "LD" [.special "ST", .reg x]]
  | .addIVx x => [.instr "ADD" [.special "I", .reg x]]
  | .ldFVx x => [.instr "LD" [.special "F", .reg x]]
  | .ldBcdVx x => [.instr "LD" [.special "BCD", .reg x]]
  | .ldIVx x => [.instr "LD" [.special "I", .reg x]]
  | .ldVxI x => [.instr "LD" [.reg x, .special "I"]]
  | .raw w => (bytesOfWord w).map .rawByte

/-- The rendering of a ROM, two bytes at a time; a trailing odd byte is a raw byte (R68). Labels are not recovered (C7). -/
def disassemble : List Byte → List AsmLine
  | hi :: lo :: rest => asmLines (decode (wordOfBytes hi lo)) ++ disassemble rest
  | [b] => [.rawByte b]
  | [] => []

/-- `digits` upper-case hexadecimal digits of a number. -/
def hexDigits : (digits : Nat) → Nat → List Char
  | 0, _ => []
  | d + 1, n => hexDigits d (n / 16) ++ ["0123456789ABCDEF".toList.getD (n % 16) '0']

/-- The text of an operand (R68). -/
def AsmOperand.text : AsmOperand → String
  | .reg r => "V" ++ String.ofList (hexDigits 1 r.val)
  | .byte b => "0x" ++ String.ofList (hexDigits 2 b.toNat)
  | .nibble n => toString n.val
  | .addr a => "0x" ++ String.ofList (hexDigits 3 a.toNat)
  | .special name => name

/-- The text of a line. -/
def AsmLine.text : AsmLine → String
  | .instr m [] => m
  | .instr m (o :: os) => m ++ " " ++ String.intercalate ", " ((o :: os).map AsmOperand.text)
  | .rawByte b => "0x" ++ String.ofList (hexDigits 2 b.toNat)

end Sys2Proof
end

