-- ==== Sys2Proof/Machine/HostOps.lean ====
section
/-! DEFINITION. The operations the block offers its host (R69), each atomic and applied between steps (R122). -/

namespace Sys2Proof.Machine

/-! ### Results and snapshots -/

/-- What a step returns (R70). -/
inductive StepResult where
  | ok
  | waitKey
  /-- The non-fatal decode fault: the address and the word of the instruction. -/
  | unimplemented (pc w : Word)
  /-- A fatal fault: its code (R120) and its info. -/
  | fatalFault (code : BitVec 3) (info : Word)
deriving DecidableEq, Repr

/-- The result of the last step, read from the status registers: `last_status` records which (R70), and the record of R125
holds the rest. -/
def State.stepResult (s : State) : StepResult :=
  if s.lastStatus = statusOk then .ok
  else if s.lastStatus = statusWaitKey then .waitKey
  else if s.lastStatus = statusUnimplemented then .unimplemented s.faultPc s.faultWord
  else .fatalFault s.faultCode s.faultInfo

/-- What `read_status()` returns: the status registers of R30. -/
structure StatusRegisters where
  halted : Bool
  faultCode : BitVec 3
  faultPc : Word
  faultWord : Word
  faultInfo : Word
  lastStatus : BitVec 2
deriving DecidableEq, Repr

/-- What `load_rom` returns (R140). -/
inductive LoadResult where
  | loadOk
  | romTooLarge
deriving DecidableEq, Repr

/-! ### The operations -/

/-- `reset()` (R138): every piece of the spec's state to its value in R33. The parameters stay, and so does the supply of
draws, which is no state of the block (R31, log entry 5). -/
def resetOp (s : State) : State := State.resetFor s.cfg s.draw s.drawCount

/-- `load_rom(bytes)` (R140): a ROM above 3584 bytes is refused whole. -/
def loadRom (bytes : List Byte) (s : State) : LoadResult × State :=
  if bytes.length > memSize - programStart then (.romTooLarge, s)
  else (.loadOk, (resetOp s).pokeBytes programStart bytes)

/-- `step(r)` (R69, R71): one step with the draw `r`. The state's own supply of draws stays as it was. -/
def stepWith (r : Byte) (s : State) : Host.Outcome State Fault Refusal :=
  match step { s with draw := r } with
  | .next t => .next { t with draw := s.draw, drawCount := s.drawCount }
  | .fault f => .fault f
  | .refused f => .refused f

/-- The step's result stops `step_n`: `Unimplemented` or `Fault` (R80). -/
def StepResult.stops : StepResult → Bool
  | .ok => false
  | .waitKey => false
  | .unimplemented _ _ => true
  | .fatalFault _ _ => true

/-- The answer of `step_n`: the last step's result (none when no step was asked for, log entry 20), the number of steps
performed, and the state. -/
structure StepNAnswer where
  last : Option StepResult
  count : Nat
  state : State
deriving DecidableEq, Repr

/-- Run steps after `count` steps whose last result was `last`. -/
def stepNFrom (last : Option StepResult) (count : Nat) : List Byte → State → Host.Outcome StepNAnswer Fault Refusal
  | [], s => .next ⟨last, count, s⟩
  | r :: rs, s =>
    match stepWith r s with
    | .fault f => .fault f
    | .refused f => .refused f
    | .next t =>
      if t.stepResult.stops then .next ⟨some t.stepResult, count + 1, t⟩
      else stepNFrom (some t.stepResult) (count + 1) rs t

/-- `step_n(N, rs)` (R80), with `N` the number of draws (log entry 20). -/
def stepN (rs : List Byte) (s : State) : Host.Outcome StepNAnswer Fault Refusal := stepNFrom none 0 rs s

/-- A timer's tick: toward zero, never below (R129). -/
def tickTimer (t : Byte) : Byte := if t.toNat > 0 then t - 1 else t

/-- `tick()` (R129): whatever the status registers say (R131). -/
def tick (s : State) : State := { s with dt := tickTimer s.dt, st := tickTimer s.st }

/-- `set_keys(k)` (R133). -/
def setKeys (k : BitVec 16) (s : State) : State := { s with keys := k }

/-- `read_fb()` (R132): 2048 bits, row-major, element `y*64 + x` the pixel at column x of row y. -/
def readFb (s : State) : List Bool :=
  (List.range displayH).flatMap fun y => (List.range displayW).map fun x => pixel s.fb x y

/-- `read_keys()` (R133). -/
def readKeys (s : State) : BitVec 16 := s.keys

/-- `read_sound()` (R134): `ST != 0`. -/
def readSound (s : State) : Bool := s.st != 0

/-- `read_status()` (R30, R69). -/
def readStatus (s : State) : StatusRegisters where
  halted := s.halted
  faultCode := s.faultCode
  faultPc := s.faultPc
  faultWord := s.faultWord
  faultInfo := s.faultInfo
  lastStatus := s.lastStatus

/-! ### One alphabet of operations -/

/-- An operation of R69 with its inputs. -/
inductive HostOp where
  | reset
  | loadRom (bytes : List Byte)
  | step (r : Byte)
  | stepN (rs : List Byte)
  | tick
  | setKeys (k : BitVec 16)
  | readFb
  | readKeys
  | readSound
  | readStatus
deriving DecidableEq, Repr

/-- An output of R69. -/
inductive HostReply where
  | nothing
  | load (r : LoadResult)
  | step (r : StepResult)
  | stepN (last : Option StepResult) (count : Nat)
  | pixels (bits : List Bool)
  | keys (k : BitVec 16)
  | sound (on : Bool)
  | status (r : StatusRegisters)
deriving DecidableEq, Repr

/-- One operation of the host: its output and the state after it. -/
def hostOp (o : HostOp) (s : State) : Host.Outcome (HostReply × State) Fault Refusal :=
  match o with
  | .reset => .next (.nothing, resetOp s)
  | .loadRom bytes => .next (.load (loadRom bytes s).1, (loadRom bytes s).2)
  | .step r =>
    match stepWith r s with
    | .next t => .next (.step t.stepResult, t)
    | .fault f => .fault f
    | .refused f => .refused f
  | .stepN rs =>
    match stepN rs s with
    | .next a => .next (.stepN a.last a.count, a.state)
    | .fault f => .fault f
    | .refused f => .refused f
  | .tick => .next (.nothing, tick s)
  | .setKeys k => .next (.nothing, setKeys k s)
  | .readFb => .next (.pixels (readFb s), s)
  | .readKeys => .next (.keys (readKeys s), s)
  | .readSound => .next (.sound (readSound s), s)
  | .readStatus => .next (.status (readStatus s), s)

/-- A sequence of host operations, in any interleaving (R82): the outputs in order and the last state. -/
def hostOps : List HostOp → State → Host.Outcome (List HostReply × State) Fault Refusal
  | [], s => .next ([], s)
  | o :: os, s =>
    match hostOp o s with
    | .fault f => .fault f
    | .refused f => .refused f
    | .next (r, t) =>
      match hostOps os t with
      | .fault f => .fault f
      | .refused f => .refused f
      | .next (rs, u) => .next (r :: rs, u)

end Sys2Proof.Machine
end

