-- ==== Sys2Proof/Safety.lean ====
section
/-! DEFINITION. What claims are stated in: the invariant of the machine, the frames of an instruction, parked states. -/

namespace Sys2Proof.Machine

/-! ### The invariant -/

/-- What every state of a run meets, from reset on.
The parameters meet R7's condition and memory is in canonical form. SP is at most the stack's capacity (R23). Every return
address is at most 0x1000 and PC at most 0x10FE (R21). `halted` is set exactly when the last result is a fatal fault, whose
code is one of 2..6, and after `Unimplemented` the code is 1 (R120, R125). -/
structure State.Inv (s : State) : Prop where
  cfg_wf : s.cfg.wf = true
  mem_wf : Memory.wf s.cfg s.mem = true
  sp_le : s.sp.toNat ≤ stackDepth
  slot_le : ∀ k : Fin 16, (s.stackSlot k).toNat ≤ 0x1000
  pc_le : s.pc.toNat ≤ 0x10FE
  halted_iff : s.halted = true ↔ s.lastStatus = statusFault
  fatal_code : s.halted = true → 2 ≤ s.faultCode.toNat ∧ s.faultCode.toNat ≤ 6
  unimplemented_code : s.lastStatus = statusUnimplemented → s.faultCode = 1

/-! ### Frames -/

/-- Every byte of memory reads in `t` as in `s`. -/
def SameMemory (s t : State) : Prop := ∀ a : Nat, t.readByte a = s.readByte a

/-- Every byte of memory outside the `n` bytes from `lo` reads in `t` as in `s`. -/
def SameMemoryOutside (lo n : Nat) (s t : State) : Prop := ∀ a : Nat, a < lo ∨ lo + n ≤ a → t.readByte a = s.readByte a

/-- Every V register but those of `written` reads in `t` as in `s`. -/
def SameRegsBut (written : List Reg) (s t : State) : Prop := ∀ r : Reg, r ∉ written → t.getV r = s.getV r

/-- The return-address stack and SP. -/
def SameStack (s t : State) : Prop := t.sp = s.sp ∧ ∀ k : Fin 16, t.stackSlot k = s.stackSlot k

/-- Both timers. -/
def SameTimers (s t : State) : Prop := t.dt = s.dt ∧ t.st = s.st

/-- Every pixel. -/
def SameDisplay (s t : State) : Prop := ∀ x y : Nat, x < displayW → y < displayH → pixel t.fb x y = pixel s.fb x y

/-- The fault record and the halt latch: all of R30's registers but `last_status`. -/
def SameFaultRecord (s t : State) : Prop :=
  t.halted = s.halted ∧ t.faultCode = s.faultCode ∧ t.faultPc = s.faultPc ∧ t.faultWord = s.faultWord ∧
    t.faultInfo = s.faultInfo

/-- What only the host writes: the keys, and the parameters. -/
def SameKeysAndParameters (s t : State) : Prop := t.keys = s.keys ∧ t.cfg = s.cfg

/-- The supply of draws. -/
def SameDraws (s t : State) : Prop := t.draw = s.draw ∧ t.drawCount = s.drawCount

/-- Everything but the V registers, I, PC and `last_status`. -/
def SameOutsideRegisters (s t : State) : Prop :=
  SameMemory s t ∧ SameStack s t ∧ SameTimers s t ∧ SameDisplay s t ∧ SameFaultRecord s t ∧
    SameKeysAndParameters s t ∧ SameDraws s t

/-- The frame of an instruction that writes only V registers: those of `written`, and nothing else. PC is the one the fetch
left. -/
def WritesOnlyRegs (written : List Reg) (s t : State) : Prop :=
  SameRegsBut written s t ∧ t.i = s.i ∧ t.pc = s.pc ∧ SameOutsideRegisters s t

/-- The frame of an instruction that writes only PC. -/
def WritesOnlyPc (s t : State) : Prop := SameRegsBut [] s t ∧ t.i = s.i ∧ SameOutsideRegisters s t

/-- The frame of an instruction that writes only I. -/
def WritesOnlyIndex (s t : State) : Prop := SameRegsBut [] s t ∧ t.pc = s.pc ∧ SameOutsideRegisters s t

/-- `t` is `s` with the fault `e` recorded for the instruction at `pc0` with word `w`, and nothing else changed (R124,
R125). -/
def Faulted (e : Raise) (pc0 w : Word) (s t : State) : Prop :=
  t = { s with
    faultCode := e.code
    faultPc := pc0
    faultWord := w
    faultInfo := e.info
    lastStatus := if e = .unimplemented then 2 else 3
    halted := if e = .unimplemented then s.halted else true }

/-! ### Steps -/

/-- The instruction the next step executes, where its fetch succeeds. -/
def State.nextInstr (s : State) : Instr := decode s.fetchWord

/-- The next step fetches: the machine is not halted and PC is a valid fetch address (R73, R79). -/
def State.Runs (s : State) : Prop :=
  s.halted = false ∧ s.pc.toNat % 2 = 0 ∧ 0x200 ≤ s.pc.toNat ∧ s.pc.toNat ≤ 0xFFE

/-- The parked states of R83: the machine runs and the word at PC is `JP PC`. -/
def State.Parked (s : State) : Prop := s.Runs ∧ s.fetchWord = 0x1000 ||| s.pc

/-- How many bytes an instruction accesses through I (R34). -/
def bytesThroughIndex : Instr → Nat
  | .drw _ _ n => n.val
  | .ldBcdVx _ => 3
  | .ldIVx x => x.val + 1
  | .ldVxI x => x.val + 1
  | _ => 0

/-- The causes of R120, for the step that begins in `s`. -/
def FaultCause (s : State) : Raise → Prop
  | .unimplemented => s.Runs ∧ ((∃ nnn, s.nextInstr = .sys nnn) ∨ ∃ w, s.nextInstr = .raw w)
  | .pcInvalid pc => pc = s.pc ∧ ¬(pc.toNat % 2 = 0 ∧ 0x200 ≤ pc.toNat ∧ pc.toNat ≤ 0xFFE)
  | .stackOverflow sp => s.Runs ∧ sp = s.sp ∧ sp.toNat = 16 ∧ ∃ nnn, s.nextInstr = .call nnn
  | .stackUnderflow sp => s.Runs ∧ sp = s.sp ∧ sp.toNat = 0 ∧ s.nextInstr = .ret
  | .memOutOfBounds addr => s.Runs ∧ addr = max s.i.toNat 0x1000 ∧ bytesThroughIndex s.nextInstr ≠ 0 ∧
      0x1000 < s.i.toNat + bytesThroughIndex s.nextInstr
  | .keyIndexOutOfRange k => s.Runs ∧ 15 < k.toNat ∧
      ∃ x, k = s.getV x ∧ (s.nextInstr = .skp x ∨ s.nextInstr = .sknp x)

/-- The word a fault of the step that begins in `s` records: the instruction's, or 0 when the fetch itself faults (R125). -/
def State.recordedWord (s : State) : Word := if s.fetchable then s.fetchWord else 0

/-- Which V registers an instruction may write (R17). -/
def mayWriteReg (c : Config) (i : Instr) (r : Reg) : Prop :=
  match i with
  | .ldVxKk x _ | .addVxKk x _ | .ldVxVy x _ | .rand x _ | .ldVxDt x | .ldVxK x => r = x
  | .orVxVy x _ | .andVxVy x _ | .xorVxVy x _ => r = x ∨ (c.logicResetsVf = true ∧ r = vF)
  | .addVxVy x _ | .subVxVy x _ | .subnVxVy x _ | .shrVxVy x _ | .shlVxVy x _ => r = x ∨ r = vF
  | .drw _ _ _ => r = vF
  | .ldVxI x => r ≤ x
  | _ => False

/-- Which instructions may write I (R22). -/
def mayWriteIndex (c : Config) : Instr → Prop
  | .ldINnn _ | .addIVx _ | .ldFVx _ => True
  | .ldIVx _ | .ldVxI _ => c.loadstoreIncrementsI = true
  | _ => False

/-- The sprite of `DRW` has a 1 bit on the pixel at column `px` and row `py`: `n` rows from I, bit 7 at column `cx`, the
first row at `cy` (R113). -/
def spriteCovers (s : State) (cx cy n px py : Nat) : Bool :=
  decide (cx ≤ px) && decide (px < cx + 8) && decide (cy ≤ py) && decide (py < cy + n) &&
    (s.readByte (s.i.toNat + (py - cy))).getLsbD (7 - (px - cx))

/-- Change the next state of an outcome. -/
def mapNext (f : State → State) : Host.Outcome State Fault Refusal → Host.Outcome State Fault Refusal
  | .next s => .next (f s)
  | .fault e => .fault e
  | .refused e => .refused e

end Sys2Proof.Machine
end

