-- ==== Sys2Proof/Certificates/Slice0/Obligations.lean ====
section
/-! DEFINITION. The statements about the model. Each docstring names the rules of spec/ it formalises. What the spec marks as
its own there (a decision D<n>, or general knowledge) is named too: a statement that rests on it is about the spec's choice,
not about the source. The bit patterns of every instruction are the spec's general knowledge (D3, log entry 8), and so are
the effects of the instructions that log entry 14 lists. -/

open Sys2Proof Sys2Proof.Machine

/-! ### The codec (30_encoding.md) -/

/-- R61: the two laws that make decode a bijection from words onto well-formed instructions. -/
def Obligations.DecodeAndEncodeAreInverse : Prop :=
  (∀ w : Word, encode (decode w) = w) ∧
  (∀ w : Word, (decode w).wellFormed = true) ∧
  (∀ i : Instr, i.wellFormed = true → decode (encode i) = i)

/-- R60: a row's word is its match with the fields shifted in, a RAW word is itself, an ill-formed term has no
encoding, and `RAW(w)` is well formed only for a word of no row. -/
def Obligations.EncodingOrsFieldsIntoMatch : Prop :=
  (∀ i row, opcodeRow i = some row → encode i = row.value ||| fieldBits i) ∧
  (∀ w : Word, encode (.raw w) = w) ∧
  (∀ i : Instr, i.wellFormed = true → encode? i = some (encode i)) ∧
  (∀ i : Instr, i.wellFormed = false → encode? i = none) ∧
  (∀ w : Word, (Instr.raw w).wellFormed = true →
    ∀ j row, opcodeRow j = some row → w &&& row.mask ≠ row.value)

/-- R58, with the table of R53 and the precedence of R54, which are the spec's general knowledge (D3, log entry 8): a word
that matches a row decodes to that row, with its fields, but for the words of CLS and RET, which match SYS's row too; no
other word matches two rows; a word of no row decodes to RAW. -/
def Obligations.DecodeTakesTheMatchingRow : Prop :=
  (∀ (w : Word) (j : Instr) (row : OpcodeRow), opcodeRow j = some row → w &&& row.mask = row.value →
    opcodeRow (decode w) = some row ∨
      (row = ⟨0xF000, 0x0000⟩ ∧ (w = 0x00E0 ∧ decode w = .cls ∨ w = 0x00EE ∧ decode w = .ret))) ∧
  (∀ (w : Word) (row : OpcodeRow), opcodeRow (decode w) = some row →
    w &&& row.mask = row.value ∧ fieldBits (decode w) = w &&& ~~~row.mask) ∧
  (∀ w : Word, w.toNat < 0x1000 → w ≠ 0x00E0 → w ≠ 0x00EE → decode w = .sys (fieldNnn w)) ∧
  (∀ w : Word, (∀ j row, opcodeRow j = some row → w &&& row.mask ≠ row.value) → decode w = .raw w)

/-- R56 (derived there, D4): the words listed in R56's table are exactly those that match no row, and exactly those that
decode to RAW. -/
def Obligations.RawExactlyTheUnmatchedWords : Prop :=
  ∀ w : Word,
    (isRawWord w = true ↔ ∀ j row, opcodeRow j = some row → w &&& row.mask ≠ row.value) ∧
    (isRawWord w = true ↔ decode w = .raw w) ∧
    (∀ v : Word, decode w = .raw v → v = w ∧ isRawWord w = true)

/-- The codec vectors of 95_test_vectors.md 2.1, one word a family (bit patterns: D3, log entry 8). -/
def Obligations.SampleWordsDecode : Prop :=
  decode 0x0000 = .sys 0x000 ∧ decode 0x00E0 = .cls ∧ decode 0x00EE = .ret ∧ decode 0x00E1 = .sys 0x0E1 ∧
  decode 0x5120 = .seVxVy 1 2 ∧ decode 0x5121 = .raw 0x5121 ∧ decode 0x8126 = .shrVxVy 1 2 ∧
  decode 0x8128 = .raw 0x8128 ∧ decode 0xB123 = .jpV0 0x123 ∧ decode 0xD12F = .drw 1 2 15 ∧
  decode 0xE19E = .skp 1 ∧ decode 0xF165 = .ldVxI 1 ∧ decode 0xF166 = .raw 0xF166

/-! ### The step (40_execution_cycle.md) and faults (60_exceptions.md) -/

/-- R72 and R74: the word is fetched before anything executes, it is the big-endian word at PC, and what is executed
is its decoding, in the state whose PC is past it; a word of no row is executed as RAW. -/
def Obligations.StepExecutesTheDecodedWord : Prop :=
  ∀ s : State, s.Runs → ∀ hi lo : Byte, s.readByte s.pc.toNat = hi → s.readByte (s.pc.toNat + 1) = lo →
    step s = exec (decode (hi ++ lo)) { s with pc := s.pc + 2 } ∧
    (isRawWord (hi ++ lo) = true → step s = exec (.raw (hi ++ lo)) { s with pc := s.pc + 2 })

/-- R73 with the record of R125 (D33): a fetch at an odd PC, below 0x200 or above 0xFFE takes PcInvalid and changes
nothing else. -/
def Obligations.InvalidPcFaultsAtFetch : Prop :=
  ∀ s : State, s.halted = false → s.pc.toNat % 2 = 1 ∨ s.pc.toNat < 0x200 ∨ 0xFFE < s.pc.toNat →
    ∃ t, step s = .next t ∧ Faulted (.pcInvalid s.pc) s.pc 0 s t ∧ t.stepResult = .fatalFault 2 s.pc

/-- R79 (D7): after a fatal fault a step changes no state and returns the fault again, with whatever draw. -/
def Obligations.HaltedStepChangesNothing : Prop :=
  ∀ s : State, s.halted = true →
    step s = .next s ∧ (∀ r, stepWith r s = .next s) ∧
    (s.Inv → s.stepResult = .fatalFault s.faultCode s.faultInfo)

/-- R12, R120, R123, R124, R125 (D6, D8, D33): a step faults exactly for one of the causes of R120, and then nothing
differs from the state before it but the record of the fault. -/
def Obligations.FaultsArePreciseAndCaused : Prop :=
  (∀ s t : State, s.halted = false → step s = .next t →
    t.lastStatus = statusUnimplemented ∨ t.lastStatus = statusFault →
    ∃ e, FaultCause s e ∧ Faulted e s.pc s.recordedWord s t) ∧
  (∀ (s : State) (e : Raise), s.halted = false → FaultCause s e →
    ∃ t, step s = .next t ∧ Faulted e s.pc s.recordedWord s t)

/-- R125 (D33): a step that does not fault leaves the fault record and the halt latch as they were, and only a waiting
`LD Vx, K` ends with WaitKey. -/
def Obligations.CleanStepKeepsFaultRecord : Prop :=
  ∀ s t : State, s.halted = false → step s = .next t →
    t.lastStatus = statusOk ∨ t.lastStatus = statusWaitKey →
    SameFaultRecord s t ∧
    (t.lastStatus = statusWaitKey → s.keys = 0 ∧ (∃ x, s.nextInstr = .ldVxK x) ∧
      t = { s with lastStatus := statusWaitKey })

/-- R77 (derived there): a step after an Unimplemented step returns Unimplemented again and changes nothing, with
ticks and key writes between them too. -/
def Obligations.UnimplementedStepRepeats : Prop :=
  ∀ s t : State, s.halted = false → step s = .next t → t.lastStatus = statusUnimplemented →
    step t = .next t ∧ t.stepResult = .unimplemented s.pc s.fetchWord ∧
    (∀ k : BitVec 16, step (setKeys k t) = .next (setKeys k t)) ∧ step (tick t) = .next (tick t)

/-- R83 (D37): from a parked state every step returns Ok and changes nothing but `last_status`, and the next state is
parked. -/
def Obligations.ParkedStateIsFixed : Prop :=
  ∀ s : State, s.Parked → step s = .next { s with lastStatus := statusOk } ∧ State.Parked { s with lastStatus := statusOk }

/-- R81: only RAND reads the draw: with another draw, every other step does the same. Ticks reach a step only through DT
and ST. -/
def Obligations.OnlyRandReadsTheDraw : Prop :=
  (∀ (s : State) (r : Byte), (s.Runs → ∀ x kk, s.nextInstr ≠ .rand x kk) →
    step { s with draw := r } = mapNext (fun t => { t with draw := r }) (step s)) ∧
  (∀ (s : State) (n : Nat),
    step (Nat.repeat tick n s) = step { s with dt := (Nat.repeat tick n s).dt, st := (Nat.repeat tick n s).st })

/-- R17 (derived there): the V registers a step changes are among those of R17's table for its instruction, and VF is
left 0 or 1 by every instruction that writes it as a flag (R16). -/
def Obligations.RegistersWrittenOnlyByTable : Prop :=
  ∀ s t : State, s.Runs → step s = .next t →
    (∀ r : Reg, t.getV r ≠ s.getV r → mayWriteReg s.cfg s.nextInstr r) ∧
    (t.lastStatus = statusOk →
      (∃ x y, s.nextInstr = .addVxVy x y ∨ s.nextInstr = .subVxVy x y ∨ s.nextInstr = .subnVxVy x y ∨
        s.nextInstr = .shrVxVy x y ∨ s.nextInstr = .shlVxVy x y ∨ ∃ n, s.nextInstr = .drw x y n) →
      t.getV vF = 0 ∨ t.getV vF = 1)

/-- R22, R23, R25, R26, R27, R34: whatever a step changes beyond V registers, PC and the status registers, it is an
instruction the spec names that changes it; keys and parameters never change. -/
def Obligations.StateWrittenOnlyByNamedInstructions : Prop :=
  ∀ s t : State, s.Runs → step s = .next t →
    (t.i ≠ s.i → mayWriteIndex s.cfg s.nextInstr) ∧
    (t.sp ≠ s.sp → (∃ nnn, s.nextInstr = .call nnn) ∨ s.nextInstr = .ret) ∧
    (∀ k, t.stackSlot k ≠ s.stackSlot k → k.val = s.sp.toNat ∧ ∃ nnn, s.nextInstr = .call nnn) ∧
    (t.dt ≠ s.dt → ∃ x, s.nextInstr = .ldDtVx x) ∧
    (t.st ≠ s.st → ∃ x, s.nextInstr = .ldStVx x) ∧
    (t.fb ≠ s.fb → s.nextInstr = .cls ∨ ∃ x y n, s.nextInstr = .drw x y n) ∧
    (∀ a, t.readByte a ≠ s.readByte a → ∃ x, s.nextInstr = .ldBcdVx x ∨ s.nextInstr = .ldIVx x) ∧
    t.keys = s.keys ∧ t.cfg = s.cfg

/-- Every instruction answers a next state in every state, but CALL and RET with SP above 16, which R23 rules out:
there the model stops by name (log entry 6, the model's choice). -/
def Obligations.OnlyCallAndRetAboveCapacityStop : Prop :=
  ∀ s : State,
    (16 < s.sp.toNat → ∀ nnn, exec (.call nnn) s = .fault (.noSuchStackSlot s.sp)) ∧
    (16 < s.sp.toNat → exec .ret s = .fault (.noSuchStackSlot s.sp)) ∧
    (∀ i : Instr, ((∃ nnn, i = .call nnn) ∨ i = .ret → s.sp.toNat ≤ 16) → ∃ t, exec i s = .next t)

/-! ### The invariant -/

/-- The invariant holds after reset (R33, D9), whatever the parameters that meet R7 and whatever the draws. -/
def Obligations.InvariantHoldsAtReset : Prop :=
  State.reset.Inv ∧ ∀ (c : Config) (r : Byte) (n : Nat), c.wf = true → (State.resetFor c r n).Inv

/-- R21, R23: from every state that meets the invariant, a step answers a next state, and that state meets it. -/
def Obligations.StepKeepsInvariant : Prop :=
  (∀ s t : State, s.Inv → step s = .next t → t.Inv) ∧ (∀ s : State, s.Inv → ∃ t, step s = .next t)

/-- R69, R82: every sequence of host operations, in any interleaving, is answered from every state that meets the
invariant, with one output each, and ends in a state that meets it. -/
def Obligations.HostOperationsKeepInvariant : Prop :=
  ∀ (ops : List HostOp) (s : State), s.Inv →
    ∃ replies t, hostOps ops s = .next (replies, t) ∧ replies.length = ops.length ∧ t.Inv

/-! ### Memory (20_memory.md) -/

/-- R35, and R11 and R43 for the read-back: a byte access above 0xFFF raises MemOutOfBounds with its address, a fatal fault,
a read as a write; below, a store is read back and leaves every other byte alone. That the accesses at 0x000..0x1FF succeed
is the spec's choice D13 (log entry 23). -/
def Obligations.ByteAccessIsBoundsChecked : Prop :=
  ∀ (s : State) (a : Nat) (b : Byte), Memory.wf s.cfg s.mem = true →
    (0xFFF < a → s.loadByte a = .error (.memOutOfBounds a) ∧ s.storeByte a b = .error (.memOutOfBounds a) ∧
      (Raise.memOutOfBounds a).fatal = true) ∧
    (a ≤ 0xFFF → s.loadByte a = .ok (s.readByte a) ∧ ∃ t, s.storeByte a b = .ok t ∧ t.loadByte a = .ok b ∧
      ∀ k, k ≠ a → t.readByte k = s.readByte k)

/-! ### Control transfer (41_control_flow.md) -/

/-- R84 (D5, log entry 15): SYS raises Unimplemented; nothing changes but the record. -/
def Obligations.SysRaisesUnimplemented : Prop :=
  ∀ (nnn : Addr) (s : State), ∃ t, exec (.sys nnn) s = .next t ∧
    Faulted .unimplemented (s.pc - 2) (0x0#4 ++ nnn) { s with pc := s.pc - 2 } t ∧
    t.stepResult = .unimplemented (s.pc - 2) (0x0#4 ++ nnn)

/-- R76 (D4, D6, D33): RAW raises Unimplemented with its address and word; the fetch's write of PC is discarded and
`halted` is not set. -/
def Obligations.RawRaisesUnimplemented : Prop :=
  ∀ (w : Word) (s : State), ∃ t, exec (.raw w) s = .next t ∧
    Faulted .unimplemented (s.pc - 2) w { s with pc := s.pc - 2 } t ∧
    t.stepResult = .unimplemented (s.pc - 2) w ∧ t.halted = s.halted ∧ t.pc + 2 = s.pc

/-- R85 (bit pattern D3, effect log entry 14; R70 and R120 for the result, D8, D32): JP writes nnn to PC and nothing
else; an odd or low target faults at the next fetch. -/
def Obligations.JumpLoadsAddress : Prop :=
  ∀ nnn : Addr, decode (0x1#4 ++ nnn) = .jp nnn ∧
    ∀ s : State, ∃ t, exec (.jp nnn) s = .next t ∧ t.pc.toNat = nnn.toNat ∧ t.lastStatus = statusOk ∧ WritesOnlyPc s t ∧
      (s.halted = false → nnn.toNat % 2 = 1 ∨ nnn.toNat < 0x200 →
        ∃ u, step t = .next u ∧ u.stepResult = .fatalFault 2 (nnn.setWidth 16))

/-- R86 (bit pattern D3, the pushed address log entry 14; the record of the fault is R125's, D6, D33): CALL pushes the
address after it and jumps; with 16 entries it overflows, pushes nothing and PC stays. -/
def Obligations.CallPushesReturnAddress : Prop :=
  ∀ nnn : Addr, decode (0x2#4 ++ nnn) = .call nnn ∧ ∀ s : State,
    (s.sp.toNat < 16 → ∃ t, exec (.call nnn) s = .next t ∧
      (∀ k, t.stackSlot k = if k.val = s.sp.toNat then s.pc else s.stackSlot k) ∧
      t.sp.toNat = s.sp.toNat + 1 ∧ t.pc.toNat = nnn.toNat ∧ t.lastStatus = statusOk ∧
      SameRegsBut [] s t ∧ t.i = s.i ∧ SameMemory s t ∧ SameTimers s t ∧ SameDisplay s t ∧ SameFaultRecord s t ∧
      SameKeysAndParameters s t ∧ SameDraws s t) ∧
    (s.sp.toNat = 16 → ∃ t, exec (.call nnn) s = .next t ∧
      Faulted (.stackOverflow 16) (s.pc - 2) (0x2#4 ++ nnn) { s with pc := s.pc - 2 } t)

/-- R87 (bit pattern D3; the record of the fault is R125's, D6, D33): RET jumps to the top entry and takes it off, the
slot keeping its value; on an empty stack it underflows. -/
def Obligations.RetPopsReturnAddress : Prop :=
  decode 0x00EE = .ret ∧ ∀ s : State,
    (∀ k : Fin 16, s.sp.toNat = k.val + 1 → ∃ t, exec .ret s = .next t ∧
      t.pc = s.stackSlot k ∧ t.sp.toNat = k.val ∧ (∀ j, t.stackSlot j = s.stackSlot j) ∧ t.lastStatus = statusOk ∧
      SameRegsBut [] s t ∧ t.i = s.i ∧ SameMemory s t ∧ SameTimers s t ∧ SameDisplay s t ∧ SameFaultRecord s t ∧
      SameKeysAndParameters s t ∧ SameDraws s t) ∧
    (s.sp.toNat = 0 → ∃ t, exec .ret s = .next t ∧
      Faulted (.stackUnderflow 0) (s.pc - 2) 0x00EE { s with pc := s.pc - 2 } t)

/-- R88 (D3): JP V0 adds V0 to nnn without reduction, and writes nothing else. -/
def Obligations.JumpV0AddsOffset : Prop :=
  ∀ nnn : Addr, decode (0xB#4 ++ nnn) = .jpV0 nnn ∧ ∀ s : State, ∃ t, exec (.jpV0 nnn) s = .next t ∧
    t.pc.toNat = nnn.toNat + (s.getV 0).toNat ∧ t.pc.toNat ≤ 0x10FE ∧ t.lastStatus = statusOk ∧ WritesOnlyPc s t

/-! ### Skips (42_skips.md) -/

/-- R89, R90 (bit patterns D3, conditions log entry 14): SE and SNE with a byte add 2 to PC exactly when Vx is, or is
not, the byte, and write nothing else. -/
def Obligations.ByteSkipsCompareRegister : Prop :=
  ∀ (x : Reg) (kk : Byte),
    decode (0x3#4 ++ nibbleBits x ++ kk) = .seVxKk x kk ∧ decode (0x4#4 ++ nibbleBits x ++ kk) = .sneVxKk x kk ∧
    ∀ s : State,
      (∃ t, exec (.seVxKk x kk) s = .next t ∧ t.pc = (if s.getV x = kk then s.pc + 2 else s.pc) ∧
        t.lastStatus = statusOk ∧ WritesOnlyPc s t) ∧
      (∃ t, exec (.sneVxKk x kk) s = .next t ∧ t.pc = (if s.getV x = kk then s.pc else s.pc + 2) ∧
        t.lastStatus = statusOk ∧ WritesOnlyPc s t)

/-- R91, R92 (bit patterns D3, conditions log entry 14): SE and SNE with a register; with x = y the one always skips
and the other never; a nonzero last nibble is RAW. -/
def Obligations.RegisterSkipsCompareRegisters : Prop :=
  ∀ x y : Reg,
    decode (0x5#4 ++ nibbleBits x ++ nibbleBits y ++ (0x0 : BitVec 4)) = .seVxVy x y ∧
    decode (0x9#4 ++ nibbleBits x ++ nibbleBits y ++ (0x0 : BitVec 4)) = .sneVxVy x y ∧
    (∀ n : BitVec 4, n ≠ 0 →
      decode (0x5#4 ++ nibbleBits x ++ nibbleBits y ++ n) = .raw (0x5#4 ++ nibbleBits x ++ nibbleBits y ++ n) ∧
      decode (0x9#4 ++ nibbleBits x ++ nibbleBits y ++ n) = .raw (0x9#4 ++ nibbleBits x ++ nibbleBits y ++ n)) ∧
    ∀ s : State,
      (∃ t, exec (.seVxVy x y) s = .next t ∧ t.pc = (if s.getV x = s.getV y then s.pc + 2 else s.pc) ∧
        (x = y → t.pc = s.pc + 2) ∧ t.lastStatus = statusOk ∧ WritesOnlyPc s t) ∧
      (∃ t, exec (.sneVxVy x y) s = .next t ∧ t.pc = (if s.getV x = s.getV y then s.pc else s.pc + 2) ∧
        (x = y → t.pc = s.pc) ∧ t.lastStatus = statusOk ∧ WritesOnlyPc s t)

/-! ### Registers and arithmetic (43_register_alu.md) -/

/-- R94, R96 (bit patterns D3, effects log entry 14): LD of a byte and of a register write Vx and nothing else, no flag. -/
def Obligations.LoadsCopyIntoRegister : Prop :=
  ∀ (x y : Reg) (kk : Byte),
    decode (0x6#4 ++ nibbleBits x ++ kk) = .ldVxKk x kk ∧
    decode (0x8#4 ++ nibbleBits x ++ nibbleBits y ++ (0x0 : BitVec 4)) = .ldVxVy x y ∧
    ∀ s : State,
      (∃ t, exec (.ldVxKk x kk) s = .next t ∧ t.getV x = kk ∧ t.lastStatus = statusOk ∧ WritesOnlyRegs [x] s t) ∧
      (∃ t, exec (.ldVxVy x y) s = .next t ∧ t.getV x = s.getV y ∧ t.lastStatus = statusOk ∧ WritesOnlyRegs [x] s t)

/-- R95 (D3, D17): ADD of a byte wraps modulo 256 and writes no flag. -/
def Obligations.AddByteWrapsWithoutFlag : Prop :=
  ∀ (x : Reg) (kk : Byte) (s : State), decode (0x7#4 ++ nibbleBits x ++ kk) = .addVxKk x kk ∧
    ∃ t, exec (.addVxKk x kk) s = .next t ∧ (t.getV x).toNat = ((s.getV x).toNat + kk.toNat) % 256 ∧
      t.lastStatus = statusOk ∧ WritesOnlyRegs [x] s t

/-- R97, R98, R99 (D3, D18, effects log entry 14): OR, AND and XOR act bit by bit, and write VF only with
LOGIC_RESETS_VF, last and with 0. -/
def Obligations.LogicActsBitwise : Prop :=
  ∀ (x y : Reg) (s : State),
    decode (0x8#4 ++ nibbleBits x ++ nibbleBits y ++ (0x1 : BitVec 4)) = .orVxVy x y ∧
    decode (0x8#4 ++ nibbleBits x ++ nibbleBits y ++ (0x2 : BitVec 4)) = .andVxVy x y ∧
    decode (0x8#4 ++ nibbleBits x ++ nibbleBits y ++ (0x3 : BitVec 4)) = .xorVxVy x y ∧
    ∀ (i : Instr) (f : Bool → Bool → Bool),
      (i = .orVxVy x y ∧ f = or) ∨ (i = .andVxVy x y ∧ f = and) ∨ (i = .xorVxVy x y ∧ f = xor) →
      ∃ t, exec i s = .next t ∧
        (¬(s.cfg.logicResetsVf = true ∧ x = vF) →
          ∀ b : Nat, b < 8 → (t.getV x).getLsbD b = f ((s.getV x).getLsbD b) ((s.getV y).getLsbD b)) ∧
        (s.cfg.logicResetsVf = true → t.getV vF = 0) ∧
        t.lastStatus = statusOk ∧ WritesOnlyRegs (if s.cfg.logicResetsVf then [x, vF] else [x]) s t

/-- R100 (bit pattern D3, the flag last D19): ADD of two registers: the sum modulo 256, then VF the carry; with x = F
the sum is lost. -/
def Obligations.AddSetsCarry : Prop :=
  ∀ (x y : Reg) (s : State),
    decode (0x8#4 ++ nibbleBits x ++ nibbleBits y ++ (0x4 : BitVec 4)) = .addVxVy x y ∧
    ∃ t, exec (.addVxVy x y) s = .next t ∧
      (x ≠ vF → (t.getV x).toNat = ((s.getV x).toNat + (s.getV y).toNat) % 256) ∧
      t.getV vF = (if 255 < (s.getV x).toNat + (s.getV y).toNat then 1 else 0) ∧
      t.lastStatus = statusOk ∧ WritesOnlyRegs [x, vF] s t

/-- R101, R102 (D3, D19, D20; SUBN's operand order log entry 14): SUB and SUBN: the difference modulo 256, then VF 1
exactly when there is no borrow. -/
def Obligations.SubtractSetsNoBorrow : Prop :=
  ∀ (x y : Reg) (s : State),
    decode (0x8#4 ++ nibbleBits x ++ nibbleBits y ++ (0x5 : BitVec 4)) = .subVxVy x y ∧
    decode (0x8#4 ++ nibbleBits x ++ nibbleBits y ++ (0x7 : BitVec 4)) = .subnVxVy x y ∧
    (∃ t, exec (.subVxVy x y) s = .next t ∧
      (x ≠ vF → ((t.getV x).toNat : Int) = (((s.getV x).toNat : Int) - (s.getV y).toNat) % 256) ∧
      t.getV vF = (if (s.getV y).toNat ≤ (s.getV x).toNat then 1 else 0) ∧
      t.lastStatus = statusOk ∧ WritesOnlyRegs [x, vF] s t) ∧
    (∃ t, exec (.subnVxVy x y) s = .next t ∧
      (x ≠ vF → ((t.getV x).toNat : Int) = (((s.getV y).toNat : Int) - (s.getV x).toNat) % 256) ∧
      t.getV vF = (if (s.getV x).toNat ≤ (s.getV y).toNat then 1 else 0) ∧
      t.lastStatus = statusOk ∧ WritesOnlyRegs [x, vF] s t)

/-- R103, R104 (D3, D15, D19): SHR and SHL shift Vx, or Vy with SHIFT_USES_VY, by one, then VF is the bit shifted out. -/
def Obligations.ShiftsMoveOneBit : Prop :=
  ∀ (x y : Reg) (s : State) (src : Nat),
    src = (if s.cfg.shiftUsesVy then (s.getV y).toNat else (s.getV x).toNat) →
    decode (0x8#4 ++ nibbleBits x ++ nibbleBits y ++ (0x6 : BitVec 4)) = .shrVxVy x y ∧
    decode (0x8#4 ++ nibbleBits x ++ nibbleBits y ++ (0xE : BitVec 4)) = .shlVxVy x y ∧
    (∃ t, exec (.shrVxVy x y) s = .next t ∧ (x ≠ vF → (t.getV x).toNat = src / 2) ∧ (t.getV vF).toNat = src % 2 ∧
      t.lastStatus = statusOk ∧ WritesOnlyRegs [x, vF] s t) ∧
    (∃ t, exec (.shlVxVy x y) s = .next t ∧ (x ≠ vF → (t.getV x).toNat = src * 2 % 256) ∧
      (t.getV vF).toNat = src / 128 ∧ t.lastStatus = statusOk ∧ WritesOnlyRegs [x, vF] s t)

/-- R105 (D3, D24): RAND writes the draw under the mask, for every draw, and nothing else of the spec's state. -/
def Obligations.RandMasksTheDraw : Prop :=
  ∀ (x : Reg) (kk : Byte) (s : State), decode (0xC#4 ++ nibbleBits x ++ kk) = .rand x kk ∧
    ∀ r : Byte, ∃ t, exec (.rand x kk) { s with draw := r } = .next t ∧
      (∀ b : Nat, b < 8 → (t.getV x).getLsbD b = (r.getLsbD b && kk.getLsbD b)) ∧ t.lastStatus = statusOk ∧
      SameRegsBut [x] s t ∧ t.i = s.i ∧ t.pc = s.pc ∧ SameMemory s t ∧ SameStack s t ∧ SameTimers s t ∧
      SameDisplay s t ∧ SameFaultRecord s t ∧ SameKeysAndParameters s t

/-! ### Index and memory (44_index_memory.md) -/

/-- R106 (bit pattern D3, effect log entry 14): LD I writes nnn to I and nothing else. -/
def Obligations.LoadIndexWritesAddress : Prop :=
  ∀ (nnn : Addr) (s : State), decode (0xA#4 ++ nnn) = .ldINnn nnn ∧
    ∃ t, exec (.ldINnn nnn) s = .next t ∧ t.i.toNat = nnn.toNat ∧ t.lastStatus = statusOk ∧ WritesOnlyIndex s t

/-- R107 (D3, D17, effect log entry 14): ADD I wraps modulo 65536 and writes no flag. -/
def Obligations.AddIndexWrapsWithoutFlag : Prop :=
  ∀ (x : Reg) (s : State), decode (0xF#4 ++ nibbleBits x ++ (0x1E : Byte)) = .addIVx x ∧
    ∃ t, exec (.addIVx x) s = .next t ∧ t.i.toNat = (s.i.toNat + (s.getV x).toNat) % 65536 ∧
      t.lastStatus = statusOk ∧ WritesOnlyIndex s t

/-- R108 (D3, D10): LD F points I at the glyph of the low nibble, for all parameters that meet R7. -/
def Obligations.FontAddressOfLowNibble : Prop :=
  ∀ (x : Reg) (s : State), decode (0xF#4 ++ nibbleBits x ++ (0x29 : Byte)) = .ldFVx x ∧
    (s.cfg.wf = true → ∃ t, exec (.ldFVx x) s = .next t ∧
      t.i.toNat = s.cfg.fontBase.toNat + s.cfg.glyphBytes * ((s.getV x).toNat % 16) ∧
      t.lastStatus = statusOk ∧ WritesOnlyIndex s t)

/-- R109 (D3, D14; the record of the fault is R125's, D6, D33): LD BCD stores the hundreds, tens and units digits at
I, I + 1, I + 2 and nothing else; where one of the three addresses is above 0xFFF it raises MemOutOfBounds with the
first such and writes nothing. -/
def Obligations.BcdStoresDigits : Prop :=
  ∀ (x : Reg) (s : State), Memory.wf s.cfg s.mem = true →
    decode (0xF#4 ++ nibbleBits x ++ (0x33 : Byte)) = .ldBcdVx x ∧
    (s.i.toNat + 3 ≤ 0x1000 → ∃ t, exec (.ldBcdVx x) s = .next t ∧
      (t.readByte s.i.toNat).toNat = (s.getV x).toNat / 100 ∧
      (t.readByte (s.i.toNat + 1)).toNat = (s.getV x).toNat / 10 % 10 ∧
      (t.readByte (s.i.toNat + 2)).toNat = (s.getV x).toNat % 10 ∧
      SameMemoryOutside s.i.toNat 3 s t ∧ t = { s with mem := t.mem, lastStatus := statusOk }) ∧
    (0x1000 < s.i.toNat + 3 → ∃ t, exec (.ldBcdVx x) s = .next t ∧
      Faulted (.memOutOfBounds (max s.i.toNat 0x1000)) (s.pc - 2) (0xF#4 ++ nibbleBits x ++ (0x33 : Byte))
        { s with pc := s.pc - 2 } t)

/-- R110 (D3, D14, D16, effect log entry 14): Fx55 stores V0..Vx at I and nothing else; I advances by x + 1 only with
LOADSTORE_INCREMENTS_I; out of bounds it raises and stores nothing. -/
def Obligations.RegisterStoreWritesRange : Prop :=
  ∀ (x : Reg) (s : State), Memory.wf s.cfg s.mem = true →
    decode (0xF#4 ++ nibbleBits x ++ (0x55 : Byte)) = .ldIVx x ∧
    (s.i.toNat + (x.val + 1) ≤ 0x1000 → ∃ t, exec (.ldIVx x) s = .next t ∧
      (∀ r : Reg, r ≤ x → t.readByte (s.i.toNat + r.val) = s.getV r) ∧
      SameMemoryOutside s.i.toNat (x.val + 1) s t ∧
      t.i.toNat = (if s.cfg.loadstoreIncrementsI then (s.i.toNat + x.val + 1) % 65536 else s.i.toNat) ∧
      t = { s with mem := t.mem, i := t.i, lastStatus := statusOk }) ∧
    (0x1000 < s.i.toNat + (x.val + 1) → ∃ t, exec (.ldIVx x) s = .next t ∧
      Faulted (.memOutOfBounds (max s.i.toNat 0x1000)) (s.pc - 2) (0xF#4 ++ nibbleBits x ++ (0x55 : Byte))
        { s with pc := s.pc - 2 } t)

/-- R111 (D3, D14, D16, effect log entry 14): Fx65 loads V0..Vx from I and stores nothing; I as in R110; out of bounds
it raises and loads nothing. -/
def Obligations.RegisterLoadReadsRange : Prop :=
  ∀ (x : Reg) (s : State), decode (0xF#4 ++ nibbleBits x ++ (0x65 : Byte)) = .ldVxI x ∧
    (s.i.toNat + (x.val + 1) ≤ 0x1000 → ∃ t, exec (.ldVxI x) s = .next t ∧
      (∀ r : Reg, t.getV r = if r ≤ x then s.readByte (s.i.toNat + r.val) else s.getV r) ∧
      t.i.toNat = (if s.cfg.loadstoreIncrementsI then (s.i.toNat + x.val + 1) % 65536 else s.i.toNat) ∧
      t.pc = s.pc ∧ t.lastStatus = statusOk ∧ SameOutsideRegisters s t) ∧
    (0x1000 < s.i.toNat + (x.val + 1) → ∃ t, exec (.ldVxI x) s = .next t ∧
      Faulted (.memOutOfBounds (max s.i.toNat 0x1000)) (s.pc - 2) (0xF#4 ++ nibbleBits x ++ (0x65 : Byte))
        { s with pc := s.pc - 2 } t)

/-! ### Display (45_display.md) -/

/-- R112 (bit pattern D3, effect log entry 14): CLS clears every pixel and writes nothing else, VF neither. -/
def Obligations.ClearScreenClearsEveryPixel : Prop :=
  decode 0x00E0 = .cls ∧ ∀ s : State, ∃ t, exec .cls s = .next t ∧
    (∀ x y : Nat, x < displayW → y < displayH → pixel t.fb x y = false) ∧
    t = { s with fb := t.fb, lastStatus := statusOk }

/-- R113 (D3, D19, D21, conflict C2): DRW turns over exactly the on-screen pixels under a 1 bit of the sprite and sets
VF to 1 exactly when one of them was set, else to 0; where a row is out of bounds it raises and draws nothing. -/
def Obligations.DrawXorsPixels : Prop :=
  ∀ (x y : Reg) (n : Fin 16) (s : State),
    decode (0xD#4 ++ nibbleBits x ++ nibbleBits y ++ nibbleBits n) = .drw x y n ∧
    (n.val = 0 ∨ s.i.toNat + n.val ≤ 0x1000 → ∃ t, exec (.drw x y n) s = .next t ∧
      (∀ px py : Nat, px < displayW → py < displayH → pixel t.fb px py =
        xor (pixel s.fb px py) (spriteCovers s (s.getV x).toNat (s.getV y).toNat n.val px py)) ∧
      (t.getV vF = 0 ∨ t.getV vF = 1) ∧
      (t.getV vF = 1 ↔ ∃ px py : Nat, px < displayW ∧ py < displayH ∧
        pixel s.fb px py = true ∧ pixel t.fb px py = false) ∧
      SameRegsBut [vF] s t ∧ SameMemory s t ∧ t = { s with v := t.v, fb := t.fb, lastStatus := statusOk }) ∧
    (n.val ≠ 0 → 0x1000 < s.i.toNat + n.val → ∃ t, exec (.drw x y n) s = .next t ∧
      Faulted (.memOutOfBounds (max s.i.toNat 0x1000)) (s.pc - 2)
        (0xD#4 ++ nibbleBits x ++ nibbleBits y ++ nibbleBits n) { s with pc := s.pc - 2 } t)

/-- R113 (D21): the row-wise drawing of the machine is the double loop of R113's pseudocode, pixel by pixel. -/
def Obligations.DrawEqualsPixelLoop : Prop :=
  ∀ (x y : Reg) (n : Fin 16) (s : State), n.val = 0 ∨ s.i.toNat + n.val ≤ 0x1000 →
    ∀ drawn, drawn = drawByPixel (s.getV x).toNat (s.getV y).toNat (s.readBytes s.i.toNat n.val) (s.fb, false) →
      exec (.drw x y n) s =
        .next { s with fb := drawn.1, v := s.v.set vF (if drawn.2 then 1 else 0), lastStatus := statusOk }

/-! ### Timers and keypad (46_timers_keypad.md) -/

/-- R114, R115, R116 (bit patterns D3, effects log entry 14; the sound flag D26): the three timer moves, each writing
its destination and nothing else. -/
def Obligations.TimerMovesCopy : Prop :=
  ∀ (x : Reg) (s : State),
    decode (0xF#4 ++ nibbleBits x ++ (0x07 : Byte)) = .ldVxDt x ∧
    decode (0xF#4 ++ nibbleBits x ++ (0x15 : Byte)) = .ldDtVx x ∧
    decode (0xF#4 ++ nibbleBits x ++ (0x18 : Byte)) = .ldStVx x ∧
    (∃ t, exec (.ldVxDt x) s = .next t ∧ t.getV x = s.dt ∧ t.lastStatus = statusOk ∧ WritesOnlyRegs [x] s t) ∧
    (∃ t, exec (.ldDtVx x) s = .next t ∧ t.dt = s.getV x ∧ t = { s with dt := t.dt, lastStatus := statusOk }) ∧
    (∃ t, exec (.ldStVx x) s = .next t ∧ t.st = s.getV x ∧ t = { s with st := t.st, lastStatus := statusOk } ∧
      (readSound t = true ↔ s.getV x ≠ 0))

/-- R117, R118 (D3, D23): SKP and SKNP skip on the state of the key that Vx names, and raise KeyIndexOutOfRange above 0xF. -/
def Obligations.KeySkipsReadKeypad : Prop :=
  ∀ (x : Reg) (s : State),
    decode (0xE#4 ++ nibbleBits x ++ (0x9E : Byte)) = .skp x ∧ decode (0xE#4 ++ nibbleBits x ++ (0xA1 : Byte)) = .sknp x ∧
    ((s.getV x).toNat ≤ 15 →
      (∃ t, exec (.skp x) s = .next t ∧
        t.pc = (if s.keys.getLsbD (s.getV x).toNat then s.pc + 2 else s.pc) ∧
        t.lastStatus = statusOk ∧ WritesOnlyPc s t) ∧
      (∃ t, exec (.sknp x) s = .next t ∧
        t.pc = (if s.keys.getLsbD (s.getV x).toNat then s.pc else s.pc + 2) ∧
        t.lastStatus = statusOk ∧ WritesOnlyPc s t)) ∧
    (15 < (s.getV x).toNat →
      (∃ t, exec (.skp x) s = .next t ∧ Faulted (.keyIndexOutOfRange (s.getV x)) (s.pc - 2)
        (0xE#4 ++ nibbleBits x ++ (0x9E : Byte)) { s with pc := s.pc - 2 } t) ∧
      (∃ t, exec (.sknp x) s = .next t ∧ Faulted (.keyIndexOutOfRange (s.getV x)) (s.pc - 2)
        (0xE#4 ++ nibbleBits x ++ (0xA1 : Byte)) { s with pc := s.pc - 2 } t))

/-- R119 (D3, D22): LD K takes the smallest pressed key; with none pressed it waits: PC back, result WaitKey, nothing
else. -/
def Obligations.WaitKeyTakesLowestKey : Prop :=
  ∀ (x : Reg) (s : State), decode (0xF#4 ++ nibbleBits x ++ (0x0A : Byte)) = .ldVxK x ∧
    (∀ k : Nat, k < 16 → s.keys.getLsbD k = true → (∀ j, j < k → s.keys.getLsbD j = false) →
      ∃ t, exec (.ldVxK x) s = .next t ∧ (t.getV x).toNat = k ∧ t.lastStatus = statusOk ∧ WritesOnlyRegs [x] s t) ∧
    ((∀ k, k < 16 → s.keys.getLsbD k = false) →
      exec (.ldVxK x) s = .next { s with pc := s.pc - 2, lastStatus := statusWaitKey })

/-! ### The host's operations (R69) -/

/-- R129: a tick takes one off each timer that is not zero, and nothing else changes. -/
def Obligations.TickDecrementsTowardZero : Prop :=
  ∀ s : State, (tick s).dt.toNat = s.dt.toNat - 1 ∧ (tick s).st.toNat = s.st.toNat - 1 ∧
    tick s = { s with dt := (tick s).dt, st := (tick s).st }

/-- R138, R33 (D9, D10, D11, D31): reset from any state. Zeros but for PC and the font. -/
def Obligations.ResetGivesListedValues : Prop :=
  ∀ s : State, s.cfg.wf = true → ∀ t, t = resetOp s →
    (∀ r, t.getV r = 0) ∧ t.i = 0 ∧ t.pc.toNat = 0x200 ∧ t.sp = 0 ∧ (∀ k, t.stackSlot k = 0) ∧ t.dt = 0 ∧ t.st = 0 ∧
    (∀ k, k < 16 * s.cfg.glyphBytes → some (t.readByte (s.cfg.fontBase.toNat + k)) = s.cfg.fontData[k]?) ∧
    (∀ a, a < s.cfg.fontBase.toNat ∨ s.cfg.fontBase.toNat + 16 * s.cfg.glyphBytes ≤ a → t.readByte a = 0) ∧
    (∀ x y, x < displayW → y < displayH → pixel t.fb x y = false) ∧ (∀ k, k < 16 → t.keys.getLsbD k = false) ∧
    readStatus t = ⟨false, 0, 0, 0, 0, 0⟩ ∧ SameDraws s t ∧ t.cfg = s.cfg

/-- R140, R141 (D12): a ROM of at most 3584 bytes is copied to 0x200 over a reset machine; a longer one changes nothing. -/
def Obligations.LoadRomCopiesOrRefuses : Prop :=
  ∀ (bytes : List Byte) (s : State),
    (3584 < bytes.length → loadRom bytes s = (.romTooLarge, s)) ∧
    (bytes.length ≤ 3584 → ∃ t, loadRom bytes s = (.loadOk, t) ∧
      (∀ k, k < bytes.length → some (t.readByte (0x200 + k)) = bytes[k]?) ∧
      SameMemoryOutside 0x200 bytes.length (resetOp s) t ∧ t = { resetOp s with mem := t.mem })

/-- R141, R142 (derived there): after a load the first fetch is the ROM's first word, absent bytes reading as 0x00;
with an empty ROM the first step returns Unimplemented(0x200, 0x0000). -/
def Obligations.FirstFetchAfterLoad : Prop :=
  ∀ (bytes : List Byte) (s t : State), s.cfg.wf = true → loadRom bytes s = (.loadOk, t) →
    t.Runs ∧ t.fetchWord = bytes.getD 0 0 ++ bytes.getD 1 0 ∧
    (bytes = [] → ∃ u, step t = .next u ∧ u.stepResult = .unimplemented 0x200 0x0000)

/-- R132: the snapshot has 2048 elements, and element y*64 + x is the pixel at column x of row y; reading changes nothing,
and no byte of memory is a pixel. -/
def Obligations.SnapshotIsRowMajor : Prop :=
  ∀ s : State, (readFb s).length = 2048 ∧
    (∀ x y : Nat, x < 64 → y < 32 → (readFb s)[y * 64 + x]? = some (pixel s.fb x y)) ∧
    hostOp .readFb s = .next (.pixels (readFb s), s) ∧ (∀ a b, readFb (s.pokeByte a b) = readFb s)

/-- R133, R134 (D26, D36): a key write sets all 16 states and nothing else, they are read back as written and no step
changes them; the sound flag is ST != 0. -/
def Obligations.KeysStayAsWritten : Prop :=
  ∀ (k : BitVec 16) (s t : State),
    readKeys (setKeys k s) = k ∧ setKeys k s = { s with keys := k } ∧ (readSound s = true ↔ s.st.toNat ≠ 0) ∧
    (step (setKeys k s) = .next t → readKeys t = k)

/-- R80 (D2): step_n stops after the first Unimplemented or Fault, and otherwise runs every step; each step takes its own
draw. Its last result for no step at all is log entry 20's. -/
def Obligations.StepNStopsAtFirstFault : Prop :=
  (∀ s : State, stepN [] s = .next ⟨none, 0, s⟩) ∧
  (∀ (r : Byte) (rs : List Byte) (s t : State), stepWith r s = .next t → t.stepResult.stops = true ∨ rs = [] →
    stepN (r :: rs) s = .next ⟨some t.stepResult, 1, t⟩) ∧
  (∀ (r : Byte) (rs : List Byte) (s t : State) (a : StepNAnswer), stepWith r s = .next t → t.stepResult.stops = false →
    rs ≠ [] → stepN rs t = .next a → stepN (r :: rs) s = .next ⟨a.last, a.count + 1, a.state⟩) ∧
  (∀ (rs : List Byte) (s : State) (a : StepNAnswer), stepN rs s = .next a →
    a.count ≤ rs.length ∧ (a.count < rs.length → ∃ q, a.last = some q ∧ q.stops = true))
end

