-- ==== Sys2Proof/Laws/Codec.lean ====
section
/-! SUPPORT. The fields of a word laid out in a format, and a word put back together from its fields (R50, R51). -/

namespace Sys2Proof

/-! ### Words as numbers -/

theorem toNat_append (m n : Nat) (x : BitVec m) (y : BitVec n) : (x ++ y).toNat = x.toNat * 2 ^ n + y.toNat := by
  rw [BitVec.toNat_append, ← Nat.shiftLeft_add_eq_or_of_lt y.isLt, Nat.shiftLeft_eq]

theorem formatA_toNat (op : BitVec 4) (a : Addr) : (formatA op a).toNat = op.toNat * 4096 + a.toNat :=
  toNat_append 4 12 op a

theorem formatXK_toNat (op : BitVec 4) (x : Reg) (k : Byte) :
    (formatXK op x k).toNat = op.toNat * 4096 + x.val * 256 + k.toNat := by
  have h := toNat_append 8 8 (op ++ nibbleBits x) k
  rw [toNat_append 4 4] at h
  change (op ++ nibbleBits x ++ k).toNat = _
  rw [h]
  simp only [nibbleBits, BitVec.toNat_ofFin]
  omega

theorem formatXY_toNat (op : BitVec 4) (x y : Reg) (n : BitVec 4) :
    (formatXY op x y n).toNat = op.toNat * 4096 + x.val * 256 + y.val * 16 + n.toNat := by
  have h := toNat_append 12 4 (op ++ nibbleBits x ++ nibbleBits y) n
  rw [toNat_append 8 4, toNat_append 4 4] at h
  change (op ++ nibbleBits x ++ nibbleBits y ++ n).toNat = _
  rw [h]
  simp only [nibbleBits, BitVec.toNat_ofFin]
  omega

theorem nibbleAt_val (w : Word) (lo : Nat) : (nibbleAt w lo).val = w.toNat / 2 ^ lo % 16 := by
  change (w.extractLsb' lo 4).toNat = _
  rw [BitVec.extractLsb'_toNat, Nat.shiftRight_eq_div_pow]

theorem fieldOp_val (w : Word) : (fieldOp w).val = w.toNat / 4096 % 16 := nibbleAt_val w 12
theorem fieldX_val (w : Word) : (fieldX w).val = w.toNat / 256 % 16 := nibbleAt_val w 8
theorem fieldY_val (w : Word) : (fieldY w).val = w.toNat / 16 % 16 := nibbleAt_val w 4
theorem fieldN_val (w : Word) : (fieldN w).val = w.toNat % 16 := by
  rw [← Nat.div_one w.toNat]; exact nibbleAt_val w 0
theorem fieldKk_toNat (w : Word) : (fieldKk w).toNat = w.toNat % 256 := by simp [fieldKk]
theorem fieldNnn_toNat (w : Word) : (fieldNnn w).toNat = w.toNat % 4096 := by simp [fieldNnn]

/-! ### Format A -/

@[simp] theorem fieldOp_formatA (op : BitVec 4) (a : Addr) : fieldOp (formatA op a) = op.toFin := by
  have := a.isLt; have := op.isLt
  apply Fin.ext; rw [fieldOp_val, formatA_toNat]; show _ = BitVec.toNat _; omega

@[simp] theorem fieldNnn_formatA (op : BitVec 4) (a : Addr) : fieldNnn (formatA op a) = a := by
  have := a.isLt
  apply BitVec.eq_of_toNat_eq; rw [fieldNnn_toNat, formatA_toNat]; omega

theorem formatA_fields (w : Word) : formatA (BitVec.ofFin (fieldOp w)) (fieldNnn w) = w := by
  have := w.isLt
  apply BitVec.eq_of_toNat_eq
  rw [formatA_toNat, fieldNnn_toNat, BitVec.toNat_ofFin, fieldOp_val]; omega

/-! ### Format XK -/

@[simp] theorem fieldOp_formatXK (op : BitVec 4) (x : Reg) (k : Byte) : fieldOp (formatXK op x k) = op.toFin := by
  have := k.isLt; have := op.isLt; have := x.isLt
  apply Fin.ext; rw [fieldOp_val, formatXK_toNat]; show _ = BitVec.toNat _; omega

@[simp] theorem fieldX_formatXK (op : BitVec 4) (x : Reg) (k : Byte) : fieldX (formatXK op x k) = x := by
  have := k.isLt; have := x.isLt
  apply Fin.ext; rw [fieldX_val, formatXK_toNat]; omega

@[simp] theorem fieldKk_formatXK (op : BitVec 4) (x : Reg) (k : Byte) : fieldKk (formatXK op x k) = k := by
  have := k.isLt
  apply BitVec.eq_of_toNat_eq; rw [fieldKk_toNat, formatXK_toNat]; omega

theorem formatXK_fields (w : Word) : formatXK (BitVec.ofFin (fieldOp w)) (fieldX w) (fieldKk w) = w := by
  have := w.isLt
  apply BitVec.eq_of_toNat_eq
  rw [formatXK_toNat, fieldKk_toNat, BitVec.toNat_ofFin, fieldOp_val, fieldX_val]; omega

/-! ### Formats XY and XYN -/

@[simp] theorem fieldOp_formatXY (op : BitVec 4) (x y : Reg) (n : BitVec 4) :
    fieldOp (formatXY op x y n) = op.toFin := by
  have := n.isLt; have := op.isLt; have := x.isLt; have := y.isLt
  apply Fin.ext; rw [fieldOp_val, formatXY_toNat]; show _ = BitVec.toNat _; omega

@[simp] theorem fieldX_formatXY (op : BitVec 4) (x y : Reg) (n : BitVec 4) : fieldX (formatXY op x y n) = x := by
  have := n.isLt; have := x.isLt; have := y.isLt
  apply Fin.ext; rw [fieldX_val, formatXY_toNat]; omega

@[simp] theorem fieldY_formatXY (op : BitVec 4) (x y : Reg) (n : BitVec 4) : fieldY (formatXY op x y n) = y := by
  have := n.isLt; have := y.isLt
  apply Fin.ext; rw [fieldY_val, formatXY_toNat]; omega

@[simp] theorem fieldN_formatXY (op : BitVec 4) (x y : Reg) (n : BitVec 4) : fieldN (formatXY op x y n) = n.toFin := by
  have := n.isLt
  apply Fin.ext; rw [fieldN_val, formatXY_toNat]; show _ = BitVec.toNat _; omega

theorem formatXY_fields (w : Word) :
    formatXY (BitVec.ofFin (fieldOp w)) (fieldX w) (fieldY w) (BitVec.ofFin (fieldN w)) = w := by
  have := w.isLt
  apply BitVec.eq_of_toNat_eq
  rw [formatXY_toNat, BitVec.toNat_ofFin, BitVec.toNat_ofFin, fieldOp_val, fieldX_val, fieldY_val, fieldN_val]; omega

end Sys2Proof
end

