-- ==== Sys2Proof/Laws/State.lean ====
section
/-! SUPPORT. One lemma per field per update of State, each true by unfolding, so that no later proof unfolds an update. -/

namespace Sys2Proof.Machine

variable (s : State)

/-! Write a V register. -/

@[simp] theorem setV_v (x : Reg) (b : Byte) : (s.setV x b).v = s.v.set x b := rfl
@[simp] theorem setV_i (x : Reg) (b : Byte) : (s.setV x b).i = s.i := rfl
@[simp] theorem setV_pc (x : Reg) (b : Byte) : (s.setV x b).pc = s.pc := rfl
@[simp] theorem setV_sp (x : Reg) (b : Byte) : (s.setV x b).sp = s.sp := rfl
@[simp] theorem setV_stack (x : Reg) (b : Byte) : (s.setV x b).stack = s.stack := rfl
@[simp] theorem setV_dt (x : Reg) (b : Byte) : (s.setV x b).dt = s.dt := rfl
@[simp] theorem setV_st (x : Reg) (b : Byte) : (s.setV x b).st = s.st := rfl
@[simp] theorem setV_fb (x : Reg) (b : Byte) : (s.setV x b).fb = s.fb := rfl
@[simp] theorem setV_keys (x : Reg) (b : Byte) : (s.setV x b).keys = s.keys := rfl
@[simp] theorem setV_mem (x : Reg) (b : Byte) : (s.setV x b).mem = s.mem := rfl
@[simp] theorem setV_halted (x : Reg) (b : Byte) : (s.setV x b).halted = s.halted := rfl
@[simp] theorem setV_faultCode (x : Reg) (b : Byte) : (s.setV x b).faultCode = s.faultCode := rfl
@[simp] theorem setV_faultPc (x : Reg) (b : Byte) : (s.setV x b).faultPc = s.faultPc := rfl
@[simp] theorem setV_faultWord (x : Reg) (b : Byte) : (s.setV x b).faultWord = s.faultWord := rfl
@[simp] theorem setV_faultInfo (x : Reg) (b : Byte) : (s.setV x b).faultInfo = s.faultInfo := rfl
@[simp] theorem setV_lastStatus (x : Reg) (b : Byte) : (s.setV x b).lastStatus = s.lastStatus := rfl
@[simp] theorem setV_cfg (x : Reg) (b : Byte) : (s.setV x b).cfg = s.cfg := rfl
@[simp] theorem setV_draw (x : Reg) (b : Byte) : (s.setV x b).draw = s.draw := rfl
@[simp] theorem setV_drawCount (x : Reg) (b : Byte) : (s.setV x b).drawCount = s.drawCount := rfl

/-! Put a byte into memory. -/

@[simp] theorem pokeByte_v (a : Nat) (b : Byte) : (s.pokeByte a b).v = s.v := rfl
@[simp] theorem pokeByte_i (a : Nat) (b : Byte) : (s.pokeByte a b).i = s.i := rfl
@[simp] theorem pokeByte_pc (a : Nat) (b : Byte) : (s.pokeByte a b).pc = s.pc := rfl
@[simp] theorem pokeByte_sp (a : Nat) (b : Byte) : (s.pokeByte a b).sp = s.sp := rfl
@[simp] theorem pokeByte_stack (a : Nat) (b : Byte) : (s.pokeByte a b).stack = s.stack := rfl
@[simp] theorem pokeByte_dt (a : Nat) (b : Byte) : (s.pokeByte a b).dt = s.dt := rfl
@[simp] theorem pokeByte_st (a : Nat) (b : Byte) : (s.pokeByte a b).st = s.st := rfl
@[simp] theorem pokeByte_fb (a : Nat) (b : Byte) : (s.pokeByte a b).fb = s.fb := rfl
@[simp] theorem pokeByte_keys (a : Nat) (b : Byte) : (s.pokeByte a b).keys = s.keys := rfl
@[simp] theorem pokeByte_mem (a : Nat) (b : Byte) : (s.pokeByte a b).mem = memWrite s.cfg s.mem a b := rfl
@[simp] theorem pokeByte_halted (a : Nat) (b : Byte) : (s.pokeByte a b).halted = s.halted := rfl
@[simp] theorem pokeByte_faultCode (a : Nat) (b : Byte) : (s.pokeByte a b).faultCode = s.faultCode := rfl
@[simp] theorem pokeByte_faultPc (a : Nat) (b : Byte) : (s.pokeByte a b).faultPc = s.faultPc := rfl
@[simp] theorem pokeByte_faultWord (a : Nat) (b : Byte) : (s.pokeByte a b).faultWord = s.faultWord := rfl
@[simp] theorem pokeByte_faultInfo (a : Nat) (b : Byte) : (s.pokeByte a b).faultInfo = s.faultInfo := rfl
@[simp] theorem pokeByte_lastStatus (a : Nat) (b : Byte) : (s.pokeByte a b).lastStatus = s.lastStatus := rfl
@[simp] theorem pokeByte_cfg (a : Nat) (b : Byte) : (s.pokeByte a b).cfg = s.cfg := rfl
@[simp] theorem pokeByte_draw (a : Nat) (b : Byte) : (s.pokeByte a b).draw = s.draw := rfl
@[simp] theorem pokeByte_drawCount (a : Nat) (b : Byte) : (s.pokeByte a b).drawCount = s.drawCount := rfl

/-! Set `last_status`. -/

@[simp] theorem withStatus_v (q : BitVec 2) : (s.withStatus q).v = s.v := rfl
@[simp] theorem withStatus_i (q : BitVec 2) : (s.withStatus q).i = s.i := rfl
@[simp] theorem withStatus_pc (q : BitVec 2) : (s.withStatus q).pc = s.pc := rfl
@[simp] theorem withStatus_sp (q : BitVec 2) : (s.withStatus q).sp = s.sp := rfl
@[simp] theorem withStatus_stack (q : BitVec 2) : (s.withStatus q).stack = s.stack := rfl
@[simp] theorem withStatus_dt (q : BitVec 2) : (s.withStatus q).dt = s.dt := rfl
@[simp] theorem withStatus_st (q : BitVec 2) : (s.withStatus q).st = s.st := rfl
@[simp] theorem withStatus_fb (q : BitVec 2) : (s.withStatus q).fb = s.fb := rfl
@[simp] theorem withStatus_keys (q : BitVec 2) : (s.withStatus q).keys = s.keys := rfl
@[simp] theorem withStatus_mem (q : BitVec 2) : (s.withStatus q).mem = s.mem := rfl
@[simp] theorem withStatus_halted (q : BitVec 2) : (s.withStatus q).halted = s.halted := rfl
@[simp] theorem withStatus_faultCode (q : BitVec 2) : (s.withStatus q).faultCode = s.faultCode := rfl
@[simp] theorem withStatus_faultPc (q : BitVec 2) : (s.withStatus q).faultPc = s.faultPc := rfl
@[simp] theorem withStatus_faultWord (q : BitVec 2) : (s.withStatus q).faultWord = s.faultWord := rfl
@[simp] theorem withStatus_faultInfo (q : BitVec 2) : (s.withStatus q).faultInfo = s.faultInfo := rfl
@[simp] theorem withStatus_lastStatus (q : BitVec 2) : (s.withStatus q).lastStatus = q := rfl
@[simp] theorem withStatus_cfg (q : BitVec 2) : (s.withStatus q).cfg = s.cfg := rfl
@[simp] theorem withStatus_draw (q : BitVec 2) : (s.withStatus q).draw = s.draw := rfl
@[simp] theorem withStatus_drawCount (q : BitVec 2) : (s.withStatus q).drawCount = s.drawCount := rfl

/-! Record a fault. -/

@[simp] theorem takeFault_v (e : Raise) (p w : Word) : (s.takeFault e p w).v = s.v := rfl
@[simp] theorem takeFault_i (e : Raise) (p w : Word) : (s.takeFault e p w).i = s.i := rfl
@[simp] theorem takeFault_pc (e : Raise) (p w : Word) : (s.takeFault e p w).pc = s.pc := rfl
@[simp] theorem takeFault_sp (e : Raise) (p w : Word) : (s.takeFault e p w).sp = s.sp := rfl
@[simp] theorem takeFault_stack (e : Raise) (p w : Word) : (s.takeFault e p w).stack = s.stack := rfl
@[simp] theorem takeFault_dt (e : Raise) (p w : Word) : (s.takeFault e p w).dt = s.dt := rfl
@[simp] theorem takeFault_st (e : Raise) (p w : Word) : (s.takeFault e p w).st = s.st := rfl
@[simp] theorem takeFault_fb (e : Raise) (p w : Word) : (s.takeFault e p w).fb = s.fb := rfl
@[simp] theorem takeFault_keys (e : Raise) (p w : Word) : (s.takeFault e p w).keys = s.keys := rfl
@[simp] theorem takeFault_mem (e : Raise) (p w : Word) : (s.takeFault e p w).mem = s.mem := rfl
@[simp] theorem takeFault_halted (e : Raise) (p w : Word) : (s.takeFault e p w).halted = (s.halted || e.fatal) := rfl
@[simp] theorem takeFault_faultCode (e : Raise) (p w : Word) : (s.takeFault e p w).faultCode = e.code := rfl
@[simp] theorem takeFault_faultPc (e : Raise) (p w : Word) : (s.takeFault e p w).faultPc = p := rfl
@[simp] theorem takeFault_faultWord (e : Raise) (p w : Word) : (s.takeFault e p w).faultWord = w := rfl
@[simp] theorem takeFault_faultInfo (e : Raise) (p w : Word) : (s.takeFault e p w).faultInfo = e.info := rfl
@[simp] theorem takeFault_lastStatus (e : Raise) (p w : Word) : (s.takeFault e p w).lastStatus = if e.fatal then statusFault else statusUnimplemented := rfl
@[simp] theorem takeFault_cfg (e : Raise) (p w : Word) : (s.takeFault e p w).cfg = s.cfg := rfl
@[simp] theorem takeFault_draw (e : Raise) (p w : Word) : (s.takeFault e p w).draw = s.draw := rfl
@[simp] theorem takeFault_drawCount (e : Raise) (p w : Word) : (s.takeFault e p w).drawCount = s.drawCount := rfl

/-! Undo the fetch. -/

@[simp] theorem unfetch_v : (s.unfetch).v = s.v := rfl
@[simp] theorem unfetch_i : (s.unfetch).i = s.i := rfl
@[simp] theorem unfetch_pc : (s.unfetch).pc = s.pc - 2 := rfl
@[simp] theorem unfetch_sp : (s.unfetch).sp = s.sp := rfl
@[simp] theorem unfetch_stack : (s.unfetch).stack = s.stack := rfl
@[simp] theorem unfetch_dt : (s.unfetch).dt = s.dt := rfl
@[simp] theorem unfetch_st : (s.unfetch).st = s.st := rfl
@[simp] theorem unfetch_fb : (s.unfetch).fb = s.fb := rfl
@[simp] theorem unfetch_keys : (s.unfetch).keys = s.keys := rfl
@[simp] theorem unfetch_mem : (s.unfetch).mem = s.mem := rfl
@[simp] theorem unfetch_halted : (s.unfetch).halted = s.halted := rfl
@[simp] theorem unfetch_faultCode : (s.unfetch).faultCode = s.faultCode := rfl
@[simp] theorem unfetch_faultPc : (s.unfetch).faultPc = s.faultPc := rfl
@[simp] theorem unfetch_faultWord : (s.unfetch).faultWord = s.faultWord := rfl
@[simp] theorem unfetch_faultInfo : (s.unfetch).faultInfo = s.faultInfo := rfl
@[simp] theorem unfetch_lastStatus : (s.unfetch).lastStatus = s.lastStatus := rfl
@[simp] theorem unfetch_cfg : (s.unfetch).cfg = s.cfg := rfl
@[simp] theorem unfetch_draw : (s.unfetch).draw = s.draw := rfl
@[simp] theorem unfetch_drawCount : (s.unfetch).drawCount = s.drawCount := rfl

/-! Move PC past a word. -/

@[simp] theorem advance_v : (s.advance).v = s.v := rfl
@[simp] theorem advance_i : (s.advance).i = s.i := rfl
@[simp] theorem advance_pc : (s.advance).pc = s.pc + 2 := rfl
@[simp] theorem advance_sp : (s.advance).sp = s.sp := rfl
@[simp] theorem advance_stack : (s.advance).stack = s.stack := rfl
@[simp] theorem advance_dt : (s.advance).dt = s.dt := rfl
@[simp] theorem advance_st : (s.advance).st = s.st := rfl
@[simp] theorem advance_fb : (s.advance).fb = s.fb := rfl
@[simp] theorem advance_keys : (s.advance).keys = s.keys := rfl
@[simp] theorem advance_mem : (s.advance).mem = s.mem := rfl
@[simp] theorem advance_halted : (s.advance).halted = s.halted := rfl
@[simp] theorem advance_faultCode : (s.advance).faultCode = s.faultCode := rfl
@[simp] theorem advance_faultPc : (s.advance).faultPc = s.faultPc := rfl
@[simp] theorem advance_faultWord : (s.advance).faultWord = s.faultWord := rfl
@[simp] theorem advance_faultInfo : (s.advance).faultInfo = s.faultInfo := rfl
@[simp] theorem advance_lastStatus : (s.advance).lastStatus = s.lastStatus := rfl
@[simp] theorem advance_cfg : (s.advance).cfg = s.cfg := rfl
@[simp] theorem advance_draw : (s.advance).draw = s.draw := rfl
@[simp] theorem advance_drawCount : (s.advance).drawCount = s.drawCount := rfl

/-! Write PC. -/

@[simp] theorem jumpTo_v (w : Word) : (s.jumpTo w).v = s.v := rfl
@[simp] theorem jumpTo_i (w : Word) : (s.jumpTo w).i = s.i := rfl
@[simp] theorem jumpTo_pc (w : Word) : (s.jumpTo w).pc = w := rfl
@[simp] theorem jumpTo_sp (w : Word) : (s.jumpTo w).sp = s.sp := rfl
@[simp] theorem jumpTo_stack (w : Word) : (s.jumpTo w).stack = s.stack := rfl
@[simp] theorem jumpTo_dt (w : Word) : (s.jumpTo w).dt = s.dt := rfl
@[simp] theorem jumpTo_st (w : Word) : (s.jumpTo w).st = s.st := rfl
@[simp] theorem jumpTo_fb (w : Word) : (s.jumpTo w).fb = s.fb := rfl
@[simp] theorem jumpTo_keys (w : Word) : (s.jumpTo w).keys = s.keys := rfl
@[simp] theorem jumpTo_mem (w : Word) : (s.jumpTo w).mem = s.mem := rfl
@[simp] theorem jumpTo_halted (w : Word) : (s.jumpTo w).halted = s.halted := rfl
@[simp] theorem jumpTo_faultCode (w : Word) : (s.jumpTo w).faultCode = s.faultCode := rfl
@[simp] theorem jumpTo_faultPc (w : Word) : (s.jumpTo w).faultPc = s.faultPc := rfl
@[simp] theorem jumpTo_faultWord (w : Word) : (s.jumpTo w).faultWord = s.faultWord := rfl
@[simp] theorem jumpTo_faultInfo (w : Word) : (s.jumpTo w).faultInfo = s.faultInfo := rfl
@[simp] theorem jumpTo_lastStatus (w : Word) : (s.jumpTo w).lastStatus = s.lastStatus := rfl
@[simp] theorem jumpTo_cfg (w : Word) : (s.jumpTo w).cfg = s.cfg := rfl
@[simp] theorem jumpTo_draw (w : Word) : (s.jumpTo w).draw = s.draw := rfl
@[simp] theorem jumpTo_drawCount (w : Word) : (s.jumpTo w).drawCount = s.drawCount := rfl

/-! Write I. -/

@[simp] theorem setIndex_v (w : Word) : (s.setIndex w).v = s.v := rfl
@[simp] theorem setIndex_i (w : Word) : (s.setIndex w).i = w := rfl
@[simp] theorem setIndex_pc (w : Word) : (s.setIndex w).pc = s.pc := rfl
@[simp] theorem setIndex_sp (w : Word) : (s.setIndex w).sp = s.sp := rfl
@[simp] theorem setIndex_stack (w : Word) : (s.setIndex w).stack = s.stack := rfl
@[simp] theorem setIndex_dt (w : Word) : (s.setIndex w).dt = s.dt := rfl
@[simp] theorem setIndex_st (w : Word) : (s.setIndex w).st = s.st := rfl
@[simp] theorem setIndex_fb (w : Word) : (s.setIndex w).fb = s.fb := rfl
@[simp] theorem setIndex_keys (w : Word) : (s.setIndex w).keys = s.keys := rfl
@[simp] theorem setIndex_mem (w : Word) : (s.setIndex w).mem = s.mem := rfl
@[simp] theorem setIndex_halted (w : Word) : (s.setIndex w).halted = s.halted := rfl
@[simp] theorem setIndex_faultCode (w : Word) : (s.setIndex w).faultCode = s.faultCode := rfl
@[simp] theorem setIndex_faultPc (w : Word) : (s.setIndex w).faultPc = s.faultPc := rfl
@[simp] theorem setIndex_faultWord (w : Word) : (s.setIndex w).faultWord = s.faultWord := rfl
@[simp] theorem setIndex_faultInfo (w : Word) : (s.setIndex w).faultInfo = s.faultInfo := rfl
@[simp] theorem setIndex_lastStatus (w : Word) : (s.setIndex w).lastStatus = s.lastStatus := rfl
@[simp] theorem setIndex_cfg (w : Word) : (s.setIndex w).cfg = s.cfg := rfl
@[simp] theorem setIndex_draw (w : Word) : (s.setIndex w).draw = s.draw := rfl
@[simp] theorem setIndex_drawCount (w : Word) : (s.setIndex w).drawCount = s.drawCount := rfl

/-! Take a draw. -/

@[simp] theorem nextDraw_v : (s.nextDraw).v = s.v := rfl
@[simp] theorem nextDraw_i : (s.nextDraw).i = s.i := rfl
@[simp] theorem nextDraw_pc : (s.nextDraw).pc = s.pc := rfl
@[simp] theorem nextDraw_sp : (s.nextDraw).sp = s.sp := rfl
@[simp] theorem nextDraw_stack : (s.nextDraw).stack = s.stack := rfl
@[simp] theorem nextDraw_dt : (s.nextDraw).dt = s.dt := rfl
@[simp] theorem nextDraw_st : (s.nextDraw).st = s.st := rfl
@[simp] theorem nextDraw_fb : (s.nextDraw).fb = s.fb := rfl
@[simp] theorem nextDraw_keys : (s.nextDraw).keys = s.keys := rfl
@[simp] theorem nextDraw_mem : (s.nextDraw).mem = s.mem := rfl
@[simp] theorem nextDraw_halted : (s.nextDraw).halted = s.halted := rfl
@[simp] theorem nextDraw_faultCode : (s.nextDraw).faultCode = s.faultCode := rfl
@[simp] theorem nextDraw_faultPc : (s.nextDraw).faultPc = s.faultPc := rfl
@[simp] theorem nextDraw_faultWord : (s.nextDraw).faultWord = s.faultWord := rfl
@[simp] theorem nextDraw_faultInfo : (s.nextDraw).faultInfo = s.faultInfo := rfl
@[simp] theorem nextDraw_lastStatus : (s.nextDraw).lastStatus = s.lastStatus := rfl
@[simp] theorem nextDraw_cfg : (s.nextDraw).cfg = s.cfg := rfl
@[simp] theorem nextDraw_draw : (s.nextDraw).draw = Config.freeDraw s.drawCount := rfl
@[simp] theorem nextDraw_drawCount : (s.nextDraw).drawCount = s.drawCount + 1 := rfl

/-! The choices between two updates. -/

@[simp] theorem skipIf_true : s.skipIf true = s.advance := rfl
@[simp] theorem skipIf_false : s.skipIf false = s := rfl

/-! Reading back a V register. -/

@[simp] theorem getV_setV (x r : Reg) (b : Byte) : (s.setV x b).getV r = if x = r then b else s.getV r := by
  by_cases h : x = r
  · subst h; simp [State.getV, State.setV]
  · have : x.val ≠ r.val := fun hv => h (Fin.ext hv)
    simp [State.getV, State.setV, h, this]

@[simp] theorem getV_pokeByte (a : Nat) (b : Byte) (r : Reg) : (s.pokeByte a b).getV r = s.getV r := rfl
@[simp] theorem getV_withStatus (q : BitVec 2) (r : Reg) : (s.withStatus q).getV r = s.getV r := rfl
@[simp] theorem getV_takeFault (e : Raise) (p w : Word) (r : Reg) : (s.takeFault e p w).getV r = s.getV r := rfl
@[simp] theorem getV_unfetch (r : Reg) : (s.unfetch).getV r = s.getV r := rfl
@[simp] theorem getV_advance (r : Reg) : (s.advance).getV r = s.getV r := rfl
@[simp] theorem getV_jumpTo (w : Word) (r : Reg) : (s.jumpTo w).getV r = s.getV r := rfl
@[simp] theorem getV_setIndex (w : Word) (r : Reg) : (s.setIndex w).getV r = s.getV r := rfl
@[simp] theorem getV_nextDraw (r : Reg) : (s.nextDraw).getV r = s.getV r := rfl

/-! Reading memory across an update that does not write it. -/

@[simp] theorem readByte_setV (x : Reg) (b : Byte) (a : Nat) : (s.setV x b).readByte a = s.readByte a := rfl
@[simp] theorem readByte_withStatus (q : BitVec 2) (a : Nat) : (s.withStatus q).readByte a = s.readByte a := rfl
@[simp] theorem readByte_takeFault (e : Raise) (p w : Word) (a : Nat) : (s.takeFault e p w).readByte a = s.readByte a := rfl
@[simp] theorem readByte_unfetch (a : Nat) : (s.unfetch).readByte a = s.readByte a := rfl
@[simp] theorem readByte_advance (a : Nat) : (s.advance).readByte a = s.readByte a := rfl
@[simp] theorem readByte_jumpTo (w : Word) (a : Nat) : (s.jumpTo w).readByte a = s.readByte a := rfl
@[simp] theorem readByte_setIndex (w : Word) (a : Nat) : (s.setIndex w).readByte a = s.readByte a := rfl
@[simp] theorem readByte_nextDraw (a : Nat) : (s.nextDraw).readByte a = s.readByte a := rfl

end Sys2Proof.Machine
end

