-- ==== Sys2Proof/Laws/Memory.lean ====
section
/-! SUPPORT. The laws of memory: read after write, the canonical form every operation keeps, and that equal canonical
memories are equal data. -/

namespace Sys2Proof.Machine

variable (c : Config)

/-! ### Read after write -/

theorem memLookup_memInsert (m : Memory) (a k : Nat) (b : Byte) (lo : Nat) (h : memWfFrom c lo m) :
    memLookup (memInsert m a b) k = if a = k then some b else memLookup m k := by
  induction m generalizing lo with
  | nil => simp [memInsert, memLookup]
  | cons p m ih =>
    obtain ⟨q, d⟩ := p
    simp only [memWfFrom, Bool.and_eq_true, decide_eq_true_eq] at h
    simp only [memInsert]
    split
    · rfl
    · split
      · subst_vars; simp only [memLookup]; split <;> rfl
      · simp only [memLookup, ih _ h.2]
        split
        · subst_vars; simp_all
        · rfl

/-- An address below the least listed one is not listed. -/
theorem memLookup_below (m : Memory) (lo a : Nat) (h : memWfFrom c lo m) (ha : a < lo) : memLookup m a = none := by
  induction m generalizing lo with
  | nil => rfl
  | cons p m ih =>
    obtain ⟨q, d⟩ := p
    simp only [memWfFrom, Bool.and_eq_true, decide_eq_true_eq] at h
    have : q ≠ a := by omega
    simp [memLookup, this, ih (q + 1) h.2 (by omega)]

theorem memLookup_memErase (m : Memory) (a k : Nat) (lo : Nat) (h : memWfFrom c lo m) :
    memLookup (memErase m a) k = if a = k then none else memLookup m k := by
  induction m generalizing lo with
  | nil => simp [memErase, memLookup]
  | cons p m ih =>
    obtain ⟨q, d⟩ := p
    simp only [memWfFrom, Bool.and_eq_true, decide_eq_true_eq] at h
    simp only [memErase]
    by_cases hq : q = a
    · subst hq
      by_cases hk : q = k
      · subst hk; simpa using memLookup_below c m (q + 1) q h.2 (by omega)
      · simp [memLookup, hk]
    · by_cases hk : q = k
      · subst hk; simp [memLookup, hq, Ne.symm hq]
      · simp [memLookup, hq, hk, ih _ h.2]

theorem memRead_memWrite (m : Memory) (h : Memory.wf c m) (a k : Nat) (b : Byte) :
    memRead c (memWrite c m a b) k = if a = k then b else memRead c m k := by
  unfold memRead memWrite
  split
  · rw [memLookup_memErase c m a k 0 h]
    split <;> simp_all
  · rw [memLookup_memInsert c m a k b 0 h]
    split <;> simp_all

/-! ### The canonical form -/

theorem memWfFrom_mono (m : Memory) (lo lo' : Nat) (hl : lo' ≤ lo) (h : memWfFrom c lo m) : memWfFrom c lo' m := by
  cases m with
  | nil => rfl
  | cons p m =>
    simp only [memWfFrom, Bool.and_eq_true, decide_eq_true_eq] at h ⊢
    exact ⟨⟨⟨by omega, h.1.1.2⟩, h.1.2⟩, h.2⟩

theorem memWfFrom_memInsert (m : Memory) (lo a : Nat) (b : Byte) (h : memWfFrom c lo m) (hlo : lo ≤ a)
    (ha : a < memSize) (hb : b ≠ unlistedByte c a) : memWfFrom c lo (memInsert m a b) := by
  induction m generalizing lo with
  | nil => simp [memInsert, memWfFrom, *]
  | cons p m ih =>
    obtain ⟨q, d⟩ := p
    simp only [memWfFrom, Bool.and_eq_true, decide_eq_true_eq] at h
    simp only [memInsert]
    split
    · simp_all [memWfFrom]
    · split
      · subst_vars; simp_all [memWfFrom]
      · simp only [memWfFrom, Bool.and_eq_true, decide_eq_true_eq]
        exact ⟨h.1, ih _ h.2 (by omega)⟩

theorem memWfFrom_memErase (m : Memory) (lo a : Nat) (h : memWfFrom c lo m) : memWfFrom c lo (memErase m a) := by
  induction m generalizing lo with
  | nil => rfl
  | cons p m ih =>
    obtain ⟨q, d⟩ := p
    simp only [memWfFrom, Bool.and_eq_true, decide_eq_true_eq] at h
    simp only [memErase]
    split
    · exact memWfFrom_mono c m (q + 1) lo (by omega) h.2
    · simp only [memWfFrom, Bool.and_eq_true, decide_eq_true_eq]
      exact ⟨h.1, ih _ h.2⟩

/-- Every write keeps the canonical form. -/
theorem memWrite_wf (m : Memory) (a : Nat) (b : Byte) (h : Memory.wf c m) (ha : a < memSize) :
    Memory.wf c (memWrite c m a b) := by
  unfold memWrite
  split
  · exact memWfFrom_memErase c m 0 a h
  · exact memWfFrom_memInsert c m 0 a b h (Nat.zero_le a) ha ‹_›

/-- The memory of a reset machine is canonical. -/
theorem reset_mem_wf : Memory.wf State.reset.cfg State.reset.mem = true := rfl

/-- Canonical memories that read alike are equal data. -/
theorem memory_ext (m n : Memory) (lo : Nat) (hm : memWfFrom c lo m) (hn : memWfFrom c lo n)
    (h : ∀ a, memRead c m a = memRead c n a) : m = n := by
  have listed : ∀ (m : Memory) (lo q : Nat) (d : Byte), memWfFrom c lo ((q, d) :: m) →
      memRead c ((q, d) :: m) q ≠ unlistedByte c q := by
    intro m lo q d hw
    simp only [memWfFrom, Bool.and_eq_true, bne_iff_ne] at hw
    simpa [memRead, memLookup] using hw.1.2
  induction m generalizing n lo with
  | nil =>
    cases n with
    | nil => rfl
    | cons p n => exact absurd (h p.1).symm (by simpa [memRead, memLookup] using listed n lo p.1 p.2 hn)
  | cons p m ih =>
    obtain ⟨q, d⟩ := p
    cases n with
    | nil => exact absurd (h q) (by simpa [memRead, memLookup] using listed m lo q d hm)
    | cons r n =>
      obtain ⟨k, e⟩ := r
      have hm' := hm; have hn' := hn
      simp only [memWfFrom, Bool.and_eq_true, decide_eq_true_eq] at hm' hn'
      have hq : q = k := by
        rcases Nat.lt_trichotomy q k with hlt | heq | hgt
        · refine absurd (h q) ?_
          have : memLookup ((k, e) :: n) q = none := by
            have : k ≠ q := by omega
            simp [memLookup, this, memLookup_below c n (k + 1) q hn'.2 (by omega)]
          rw [show memRead c ((k, e) :: n) q = unlistedByte c q by simp [memRead, this]]
          exact listed m lo q d hm
        · exact heq
        · refine absurd (h k).symm ?_
          have : memLookup ((q, d) :: m) k = none := by
            have : q ≠ k := by omega
            simp [memLookup, this, memLookup_below c m (q + 1) k hm'.2 (by omega)]
          rw [show memRead c ((q, d) :: m) k = unlistedByte c k by simp [memRead, this]]
          exact listed n lo k e hn
      subst hq
      have hd : d = e := by simpa [memRead, memLookup] using h q
      subst hd
      refine congrArg _ (ih n (q + 1) hm'.2 hn'.2 fun a => ?_)
      by_cases ha : q = a
      · subst ha
        simp [memRead, memLookup_below c m (q + 1) q hm'.2 (by omega), memLookup_below c n (q + 1) q hn'.2 (by omega)]
      · simpa [memRead, memLookup, ha] using h a

/-! ### At the level of State -/

theorem readByte_pokeByte (s : State) (h : Memory.wf s.cfg s.mem) (a k : Nat) (b : Byte) :
    (s.pokeByte a b).readByte k = if a = k then b else s.readByte k :=
  memRead_memWrite s.cfg s.mem h a k b

theorem pokeByte_wf (s : State) (a : Nat) (b : Byte) (h : Memory.wf s.cfg s.mem) (ha : a < memSize) :
    Memory.wf (s.pokeByte a b).cfg (s.pokeByte a b).mem :=
  memWrite_wf s.cfg s.mem a b h ha

end Sys2Proof.Machine
end

