-- ==== Sys2Proof/Laws/Ops.lean ====
section
/-! SUPPORT. What each shared operation can do, said once: multi-byte accesses, register runs, the fetch, the ends of an
instruction. Proofs cite these and do not unfold the operations. -/

namespace Sys2Proof.Machine

variable (s : State)

/-! ### Loads -/

theorem readBytes_length (a n : Nat) : (s.readBytes a n).length = n := by simp [State.readBytes]

theorem readBytes_getElem? (a n k : Nat) (h : k < n) : (s.readBytes a n)[k]? = some (s.readByte (a + k)) := by
  simp [State.readBytes, h]

theorem readBytes_succ (a n : Nat) : s.readBytes a (n + 1) = s.readByte a :: s.readBytes (a + 1) n := by
  simp only [State.readBytes, List.range_succ_eq_map, List.map_cons, List.map_map, Nat.add_zero]
  congr 1
  apply List.map_congr_left
  intro k _
  simp only [Function.comp_apply]
  congr 1
  omega

/-- All of the bytes exist: every byte is read. -/
theorem loadBytes_inside (a n : Nat) (h : n = 0 ∨ a + n ≤ memSize) : s.loadBytes a n = .ok (s.readBytes a n) := by
  induction n generalizing a with
  | zero => rfl
  | succ n ih =>
    have ha : a < memSize := by omega
    simp only [State.loadBytes, State.loadByte, ha, if_true, ih (a + 1) (by omega), readBytes_succ]

/-- Some byte does not exist: the lowest such address is raised (R123). -/
theorem loadBytes_outside (a n : Nat) (hn : n ≠ 0) (h : memSize < a + n) :
    s.loadBytes a n = .error (.memOutOfBounds (max a memSize)) := by
  induction n generalizing a with
  | zero => exact absurd rfl hn
  | succ n ih =>
    by_cases ha : a < memSize
    · simp only [State.loadBytes, State.loadByte, ha, if_true, ih (a + 1) (by omega) (by omega)]
      congr 2
      omega
    · simp only [State.loadBytes, State.loadByte, ha, if_false]
      congr 2
      omega

/-! ### Stores -/

/-- All of the bytes exist: every byte is written. -/
theorem storeBytes_inside (a : Nat) (bs : List Byte) (h : bs = [] ∨ a + bs.length ≤ memSize) :
    s.storeBytes a bs = .ok (s.pokeBytes a bs) := by
  induction bs generalizing s a with
  | nil => rfl
  | cons b bs ih =>
    simp only [List.length_cons, reduceCtorEq, false_or] at h
    have ha : a < memSize := by omega
    simp only [State.storeBytes, State.storeByte, ha, if_true, State.pokeBytes]
    exact ih _ (a + 1) (.inr (by omega))

/-- Some byte does not exist: the lowest such address is raised (R123). -/
theorem storeBytes_outside (a : Nat) (bs : List Byte) (hb : bs ≠ []) (h : memSize < a + bs.length) :
    s.storeBytes a bs = .error (.memOutOfBounds (max a memSize)) := by
  induction bs generalizing s a with
  | nil => exact absurd rfl hb
  | cons b bs ih =>
    simp only [List.length_cons] at h
    by_cases ha : a < memSize
    · simp only [State.storeBytes, State.storeByte, ha, if_true]
      cases bs with
      | nil => simp only [List.length_nil] at h; omega
      | cons b' bs =>
        rw [ih _ (a + 1) (by simp) (by omega)]
        congr 2
        omega
    · simp only [State.storeBytes, State.storeByte, ha, if_false]
      congr 2
      omega

/-- A run of writes changes nothing but memory. -/
theorem pokeBytes_frame (a : Nat) (bs : List Byte) : s.pokeBytes a bs = { s with mem := (s.pokeBytes a bs).mem } := by
  induction bs generalizing s a with
  | nil => rfl
  | cons b bs ih => rw [State.pokeBytes, ih]; rfl

/-- A run of writes inside memory keeps the canonical form. -/
theorem pokeBytes_wf (a : Nat) (bs : List Byte) (hs : Memory.wf s.cfg s.mem) (h : bs = [] ∨ a + bs.length ≤ memSize) :
    Memory.wf s.cfg (s.pokeBytes a bs).mem := by
  induction bs generalizing s a with
  | nil => exact hs
  | cons b bs ih =>
    simp only [List.length_cons, reduceCtorEq, false_or] at h
    exact ih (s.pokeByte a b) (a + 1) (pokeByte_wf s a b hs (by omega)) (.inr (by omega))

/-- What a run of writes leaves at every address. -/
theorem readByte_pokeBytes (a : Nat) (bs : List Byte) (hs : Memory.wf s.cfg s.mem)
    (h : bs = [] ∨ a + bs.length ≤ memSize) (k : Nat) :
    (s.pokeBytes a bs).readByte k = if a ≤ k then bs.getD (k - a) (s.readByte k) else s.readByte k := by
  induction bs generalizing s a with
  | nil => simp [State.pokeBytes]
  | cons b bs ih =>
    simp only [List.length_cons, reduceCtorEq, false_or] at h
    rw [State.pokeBytes, ih (s.pokeByte a b) (a + 1) (pokeByte_wf s a b hs (by omega)) (.inr (by omega)),
      readByte_pokeByte s hs]
    rcases Nat.lt_trichotomy k a with hk | hk | hk
    · have : ¬ a + 1 ≤ k := by omega
      have : ¬ a ≤ k := by omega
      have : a ≠ k := by omega
      simp [*]
    · subst hk
      have : ¬ k + 1 ≤ k := by omega
      simp
    · have h1 : a + 1 ≤ k := by omega
      have h2 : a ≤ k := by omega
      have h3 : a ≠ k := by omega
      have h4 : k - a = (k - (a + 1)) + 1 := by omega
      simp [h1, h2, h3, h4]

/-! ### Register runs -/

/-- A run of register writes changes nothing but V registers. -/
theorem setVs_frame (k : Nat) (bs : List Byte) : s.setVs k bs = { s with v := (s.setVs k bs).v } := by
  induction bs generalizing s k with
  | nil => rfl
  | cons b bs ih =>
    simp only [State.setVs]
    split
    · rw [ih]; rfl
    · rfl

/-- What a run of register writes leaves in every register. -/
theorem getV_setVs (k : Nat) (bs : List Byte) (r : Reg) :
    (s.setVs k bs).getV r = if k ≤ r.val then bs.getD (r.val - k) (s.getV r) else s.getV r := by
  induction bs generalizing s k with
  | nil => simp [State.setVs]
  | cons b bs ih =>
    simp only [State.setVs]
    split
    · rename_i hk
      rw [ih, getV_setV]
      rcases Nat.lt_trichotomy r.val k with h | h | h
      · have h1 : ¬ k + 1 ≤ r.val := by omega
        have h2 : ¬ k ≤ r.val := by omega
        have h3 : (⟨k, hk⟩ : Reg) ≠ r := fun e => by subst e; simp at h
        simp [h1, h2, h3]
      · have h3 : (⟨k, hk⟩ : Reg) = r := Fin.ext h.symm
        simp [h, h3]
      · have h1 : k + 1 ≤ r.val := by omega
        have h2 : k ≤ r.val := by omega
        have h3 : (⟨k, hk⟩ : Reg) ≠ r := fun e => by subst e; simp at h
        have h4 : r.val - k = (r.val - (k + 1)) + 1 := by omega
        simp [h1, h2, h3, h4]
    · have : ¬ k ≤ r.val := by omega
      simp [this]

theorem getVs_length (x : Reg) : (s.getVs x).length = x.val + 1 := by
  simp [State.getVs]

theorem getVs_getElem? (x : Reg) (k : Reg) (h : k.val ≤ x.val) : (s.getVs x)[k.val]? = some (s.getV k) := by
  simp [State.getVs, State.getV, Nat.lt_succ_of_le h]

/-! ### The fetch -/

/-- `fetchable` is R20's condition. -/
theorem fetchable_iff :
    s.fetchable = true ↔ s.pc.toNat % 2 = 0 ∧ 0x200 ≤ s.pc.toNat ∧ s.pc.toNat ≤ 0xFFE := by
  simp only [State.fetchable, Bool.and_eq_true, decide_eq_true_eq, Bool.not_eq_true', BitVec.getLsbD, Nat.testBit_zero,
    decide_eq_false_iff_not]
  omega

/-- The three cases of a step. -/
theorem step_cases :
    (s.halted = true ∧ step s = .next s) ∨
    (s.halted = false ∧ s.fetchable = false ∧ step s = .next (s.takeFault (.pcInvalid s.pc) s.pc 0)) ∨
    (s.halted = false ∧ s.fetchable = true ∧ step s = exec (decode s.fetchWord) s.advance) := by
  unfold step cycle State.fetch
  cases hh : s.halted
  · cases hf : s.fetchable
    · exact .inr (.inl ⟨rfl, rfl, rfl⟩)
    · exact .inr (.inr ⟨rfl, rfl, rfl⟩)
  · exact .inl ⟨rfl, rfl⟩

/-- The fetch undone. -/
@[simp] theorem unfetch_advance : s.advance.unfetch = s := by
  cases s; simp [State.advance, State.unfetch, State.pc0]

@[simp] theorem pc0_advance : s.advance.pc0 = s.pc := by simp [State.advance, State.pc0]

end Sys2Proof.Machine
end

