-- ==== Sys2Proof/Laws/Exec.lean ====
section
/-! SUPPORT. What executing an instruction can do, said once: it retires, it waits (LD Vx, K), it raises a fault for a named
cause, or it stops (CALL and RET with SP above 16). Proofs over all instructions split these four cases. -/

namespace Sys2Proof.Machine

variable (s : State)

/-! ### The two outcomes of a multi-byte access -/

theorem loadBytes_cases (a n : Nat) :
    (n = 0 ∨ a + n ≤ memSize) ∧ s.loadBytes a n = .ok (s.readBytes a n) ∨
    n ≠ 0 ∧ memSize < a + n ∧ s.loadBytes a n = .error (.memOutOfBounds (max a memSize)) := by
  by_cases h : n = 0 ∨ a + n ≤ memSize
  · exact .inl ⟨h, loadBytes_inside s a n h⟩
  · exact .inr ⟨by omega, by omega, loadBytes_outside s a n (by omega) (by omega)⟩

theorem storeBytes_cases (a : Nat) (bs : List Byte) :
    (bs = [] ∨ a + bs.length ≤ memSize) ∧ s.storeBytes a bs = .ok (s.pokeBytes a bs) ∨
    bs ≠ [] ∧ memSize < a + bs.length ∧ s.storeBytes a bs = .error (.memOutOfBounds (max a memSize)) := by
  by_cases h : bs = [] ∨ a + bs.length ≤ memSize
  · exact .inl ⟨h, storeBytes_inside s a bs h⟩
  · exact .inr ⟨by tauto, by omega, storeBytes_outside s a bs (by tauto) (by omega)⟩

/-! ### Updates that may do nothing -/

theorem skipIf_frame (c : Bool) : s.skipIf c = { s with pc := (s.skipIf c).pc } := by cases c <;> rfl

theorem logicFlag_frame : s.logicFlag = { s with v := s.logicFlag.v } := by
  unfold State.logicFlag; split <;> rfl

theorem stepIndex_frame (x : Reg) : s.stepIndex x = { s with i := (s.stepIndex x).i } := by
  unfold State.stepIndex; split <;> rfl

/-- The smallest pressed key, if there is one. -/
theorem lowestKey_eq_none (keys : BitVec 16) : lowestKey keys = none ↔ keys = 0 := by
  simp only [lowestKey, List.find?_eq_none, List.mem_range]
  constructor
  · intro h
    ext k hk
    rw [← BitVec.getLsbD_eq_getElem hk]
    simpa using h k hk
  · rintro rfl k hk
    simp

theorem lowestKey_eq_some (keys : BitVec 16) (k : Nat) :
    lowestKey keys = some k ↔ k < 16 ∧ keys.getLsbD k = true ∧ ∀ j, j < k → keys.getLsbD j = false := by
  unfold lowestKey
  rw [List.find?_range_eq_some]
  constructor
  · rintro ⟨h1, h2, h3⟩
    exact ⟨List.mem_range.1 h2, h1, fun j hj => by simpa using h3 j hj⟩
  · rintro ⟨h1, h2, h3⟩
    exact ⟨h2, List.mem_range.2 h1, fun j hj => by simpa using h3 j hj⟩

/-! ### The ends of an instruction -/

/-- The causes for which `i`, executing in `s`, raises (R120). -/
def RaisesAt (i : Instr) : Raise → Prop
  | .unimplemented => (∃ nnn, i = .sys nnn) ∨ ∃ w, i = .raw w
  | .pcInvalid _ => False
  | .stackOverflow sp => sp = s.sp ∧ sp.toNat = 16 ∧ ∃ nnn, i = .call nnn
  | .stackUnderflow sp => sp = s.sp ∧ sp.toNat = 0 ∧ i = .ret
  | .memOutOfBounds a => a = max s.i.toNat memSize ∧ bytesThroughIndex i ≠ 0 ∧ memSize < s.i.toNat + bytesThroughIndex i
  | .keyIndexOutOfRange k => 15 < k.toNat ∧ ∃ x, k = s.getV x ∧ (i = .skp x ∨ i = .sknp x)

/-- What executing `i` in `s` can answer. -/
inductive ExecEnd (i : Instr) : Host.Outcome State Fault Refusal → Prop where
  /-- It retires, with the keys, the parameters and the fault record as they were. -/
  | retires (t : State) (keys : t.keys = s.keys) (cfg : t.cfg = s.cfg) (record : SameFaultRecord s t) :
      ExecEnd i (retire t)
  /-- LD Vx, K waits. -/
  | waits (x : Reg) (instr : i = .ldVxK x) (noKey : s.keys = 0) : ExecEnd i (.next (s.unfetch.withStatus statusWaitKey))
  /-- It raises. -/
  | raises (e : Raise) (cause : RaisesAt s i e) : ExecEnd i (raiseFault i s e)
  /-- It stops. -/
  | stops (above : 16 < s.sp.toNat) (instr : (∃ nnn, i = .call nnn) ∨ i = .ret) :
      ExecEnd i (.fault (.noSuchStackSlot s.sp))

/-- A retired state that differs from `s` in nothing the host or the fault record holds. -/
theorem ExecEnd.retire_of (i : Instr) (t : State)
    (h : t.keys = s.keys ∧ t.cfg = s.cfg ∧ SameFaultRecord s t) : ExecEnd s i (retire t) := .retires t h.1 h.2.1 h.2.2

theorem SameFaultRecord.refl : SameFaultRecord s s := ⟨rfl, rfl, rfl, rfl, rfl⟩

theorem execEnd_skip (i : Instr) (c : Bool) : ExecEnd s i (retire (s.skipIf c)) :=
  ExecEnd.retire_of s i _ (by rw [skipIf_frame]; exact ⟨rfl, rfl, SameFaultRecord.refl s⟩)

theorem execEnd_logic (i : Instr) (x : Reg) (b : Byte) : ExecEnd s i (retire (s.setV x b).logicFlag) :=
  ExecEnd.retire_of s i _ (by rw [logicFlag_frame]; exact ⟨rfl, rfl, SameFaultRecord.refl s⟩)

/-- The inversion of exec. -/
theorem exec_ends (i : Instr) : ExecEnd s i (exec i s) := by
  have keeps : ∀ t : State, t.keys = s.keys ∧ t.cfg = s.cfg ∧ SameFaultRecord s t → ExecEnd s i (retire t) :=
    ExecEnd.retire_of s i
  cases i with
  | cls => exact keeps _ ⟨rfl, rfl, SameFaultRecord.refl s⟩
  | ret =>
    show ExecEnd s _ (execRet s)
    unfold execRet
    split
    · exact .raises _ ⟨rfl, ‹_›, rfl⟩
    · split
      · exact keeps _ ⟨rfl, rfl, SameFaultRecord.refl s⟩
      · exact .stops (by omega) (.inr rfl)
  | sys nnn => exact .raises _ (.inl ⟨nnn, rfl⟩)
  | jp nnn => exact keeps _ ⟨rfl, rfl, SameFaultRecord.refl s⟩
  | call nnn =>
    show ExecEnd s _ (execCall nnn s)
    unfold execCall
    split
    · exact keeps _ ⟨rfl, rfl, SameFaultRecord.refl s⟩
    · split
      · exact .raises _ ⟨rfl, ‹_›, nnn, rfl⟩
      · exact .stops (by omega) (.inl ⟨nnn, rfl⟩)
  | seVxKk x kk => exact execEnd_skip s _ _
  | sneVxKk x kk => exact execEnd_skip s _ _
  | seVxVy x y => exact execEnd_skip s _ _
  | ldVxKk x kk => exact keeps _ ⟨rfl, rfl, SameFaultRecord.refl s⟩
  | addVxKk x kk => exact keeps _ ⟨rfl, rfl, SameFaultRecord.refl s⟩
  | ldVxVy x y => exact keeps _ ⟨rfl, rfl, SameFaultRecord.refl s⟩
  | orVxVy x y => exact execEnd_logic s _ _ _
  | andVxVy x y => exact execEnd_logic s _ _ _
  | xorVxVy x y => exact execEnd_logic s _ _ _
  | addVxVy x y => exact keeps _ ⟨rfl, rfl, SameFaultRecord.refl s⟩
  | subVxVy x y => exact keeps _ ⟨rfl, rfl, SameFaultRecord.refl s⟩
  | shrVxVy x y => exact keeps _ ⟨rfl, rfl, SameFaultRecord.refl s⟩
  | subnVxVy x y => exact keeps _ ⟨rfl, rfl, SameFaultRecord.refl s⟩
  | shlVxVy x y => exact keeps _ ⟨rfl, rfl, SameFaultRecord.refl s⟩
  | sneVxVy x y => exact execEnd_skip s _ _
  | ldINnn nnn => exact keeps _ ⟨rfl, rfl, SameFaultRecord.refl s⟩
  | jpV0 nnn => exact keeps _ ⟨rfl, rfl, SameFaultRecord.refl s⟩
  | rand x kk => exact keeps _ ⟨rfl, rfl, SameFaultRecord.refl s⟩
  | drw x y n =>
    show ExecEnd s _ (execDrw x y n s)
    unfold execDrw
    rcases loadBytes_cases s (s.indexAddr 0) n.val with ⟨-, h⟩ | ⟨h0, h1, h⟩ <;> rw [h]
    · exact keeps _ ⟨rfl, rfl, SameFaultRecord.refl s⟩
    · exact .raises _ ⟨rfl, h0, h1⟩
  | skp x =>
    show ExecEnd s _ (execSkp x s)
    unfold execSkp State.skipOnKey
    split
    · exact .raises _ ⟨‹_›, x, rfl, .inl rfl⟩
    · exact execEnd_skip s _ _
  | sknp x =>
    show ExecEnd s _ (execSknp x s)
    unfold execSknp State.skipOnKey
    split
    · exact .raises _ ⟨‹_›, x, rfl, .inr rfl⟩
    · exact execEnd_skip s _ _
  | ldVxDt x => exact keeps _ ⟨rfl, rfl, SameFaultRecord.refl s⟩
  | ldVxK x =>
    show ExecEnd s _ (execLdVxK x s)
    unfold execLdVxK
    split
    · exact keeps _ ⟨rfl, rfl, SameFaultRecord.refl s⟩
    · exact .waits x rfl ((lowestKey_eq_none _).1 ‹_›)
  | ldDtVx x => exact keeps _ ⟨rfl, rfl, SameFaultRecord.refl s⟩
  | ldStVx x => exact keeps _ ⟨rfl, rfl, SameFaultRecord.refl s⟩
  | addIVx x => exact keeps _ ⟨rfl, rfl, SameFaultRecord.refl s⟩
  | ldFVx x => exact keeps _ ⟨rfl, rfl, SameFaultRecord.refl s⟩
  | ldBcdVx x =>
    show ExecEnd s _ (execLdBcdVx x s)
    unfold execLdBcdVx
    rcases storeBytes_cases s (s.indexAddr 0) (bcdDigits (s.getV x)) with ⟨-, h⟩ | ⟨-, h1, h⟩ <;> rw [h]
    · exact keeps _ (by rw [pokeBytes_frame]; exact ⟨rfl, rfl, SameFaultRecord.refl s⟩)
    · exact .raises _ ⟨rfl, Nat.succ_ne_zero 2, h1⟩
  | ldIVx x =>
    show ExecEnd s _ (execLdIVx x s)
    unfold execLdIVx
    rcases storeBytes_cases s (s.indexAddr 0) (s.getVs x) with ⟨-, h⟩ | ⟨-, h1, h⟩ <;> rw [h]
    · refine keeps ((s.pokeBytes _ _).stepIndex x) ?_
      rw [stepIndex_frame, pokeBytes_frame]
      exact ⟨rfl, rfl, SameFaultRecord.refl s⟩
    · rw [getVs_length] at h1
      exact .raises _ ⟨rfl, Nat.succ_ne_zero _, h1⟩
  | ldVxI x =>
    show ExecEnd s _ (execLdVxI x s)
    unfold execLdVxI
    rcases loadBytes_cases s (s.indexAddr 0) (x.val + 1) with ⟨-, h⟩ | ⟨h0, h1, h⟩ <;> rw [h]
    · refine keeps ((s.setVs 0 _).stepIndex x) ?_
      rw [stepIndex_frame, setVs_frame]
      exact ⟨rfl, rfl, SameFaultRecord.refl s⟩
    · exact .raises _ ⟨rfl, h0, h1⟩
  | raw w => exact .raises _ (.inr ⟨w, rfl⟩)

/-- A step of a machine that runs is the execution of its next instruction. -/
theorem step_of_runs (h : s.Runs) : step s = exec s.nextInstr s.advance := by
  rcases step_cases s with h1 | h1 | h1
  · exact absurd h1.1 (by simp [h.1])
  · exact absurd ((fetchable_iff s).2 h.2) (by simp [h1.2.1])
  · exact h1.2.2

end Sys2Proof.Machine
end

