-- ==== Sys2Proof/Laws/Display.lean ====
section
/-! SUPPORT. What drawing does to a pixel: one lemma per operation of the display. -/

namespace Sys2Proof.Machine

/-- The sprite bit over column `px`. -/
theorem spriteRow_getMsbD (b : Byte) (cx px : Nat) (h : px < 64) :
    (spriteRow b cx).getMsbD px = (decide (cx ≤ px) && decide (px < cx + 8) && b.getLsbD (7 - (px - cx))) := by
  unfold spriteRow
  simp only [BitVec.getMsbD_ushiftRight, BitVec.getMsbD_append]
  by_cases h1 : cx ≤ px
  · by_cases h2 : px < cx + 8
    · have h3 : px - cx < 8 := by omega
      have h4 : ¬ px < cx := by omega
      have h5 : ¬ 8 ≤ px - cx := by omega
      simp [h1, h2, h3, h4, h5, BitVec.getMsbD, h]
    · have h3 : ¬ px - cx < 8 := by omega
      simp [h1, h2, h3]
  · have h3 : px < cx := by omega
    simp [h1, h3]

/-- A pixel of a framebuffer with one row rewritten. -/
theorem pixel_set (fb : Framebuffer) (py : Nat) (h : py < 32) (w : BitVec 64) (px qy : Nat) :
    pixel (fb.set py w) px qy = if qy = py then w.getMsbD px else pixel fb px qy := by
  unfold pixel
  by_cases hq : qy < 32
  · by_cases he : qy = py
    · subst he; simp [hq]
    · simp [hq, he, Vector.getElem_set_ne h hq (Ne.symm he)]
  · have : qy ≠ py := by omega
    simp [hq, this]

/-- A blank framebuffer. -/
theorem pixel_blank (px py : Nat) : pixel (Vector.replicate 32 0) px py = false := by
  unfold pixel; split <;> simp

/-- The bit of a list of sprite rows over a pixel, the first row at `py`. -/
def rowsCover (cx py : Nat) (rows : List Byte) (px qy : Nat) : Bool :=
  decide (py ≤ qy) && decide (qy < py + rows.length) && (spriteRow (rows.getD (qy - py) 0) cx).getMsbD px

/-- Rows past the first cover what the list covers one row lower. -/
theorem rowsCover_cons (cx py : Nat) (b : Byte) (rows : List Byte) (px qy : Nat) :
    rowsCover cx py (b :: rows) px qy =
      if qy = py then (spriteRow b cx).getMsbD px else rowsCover cx (py + 1) rows px qy := by
  unfold rowsCover
  by_cases h : qy = py
  · subst h; simp
  · by_cases h1 : py + 1 ≤ qy
    · have h2 : py ≤ qy := by omega
      have h3 : qy - py = (qy - (py + 1)) + 1 := by omega
      have h4 : (qy < py + (rows.length + 1)) = (qy < py + 1 + rows.length) := by
        rw [Nat.add_assoc, Nat.add_comm 1]
      simp [h, h1, h2, h3, h4]
    · have h2 : ¬ py ≤ qy := by omega
      simp [h, h1, h2]

/-- Drawing turns over exactly the pixels its rows cover. -/
theorem pixel_drawRows (cx py : Nat) (rows : List Byte) (acc : Framebuffer × Bool) (px qy : Nat) (hq : qy < 32) :
    pixel (drawRows cx py rows acc).1 px qy = xor (pixel acc.1 px qy) (rowsCover cx py rows px qy) := by
  induction rows generalizing py acc with
  | nil =>
    have : rowsCover cx py [] px qy = false := by
      by_cases h : py ≤ qy
      · have : ¬ qy < py := by omega
        simp [rowsCover, this]
      · simp [rowsCover, h]
    simp [drawRows, this]
  | cons b rows ih =>
    obtain ⟨fb, e⟩ := acc
    rw [rowsCover_cons]
    have below : ∀ q, q = py → rowsCover cx (py + 1) rows px q = false := by
      rintro q rfl
      simp [rowsCover]
    simp only [drawRows]
    split
    · rename_i hp
      rw [ih, pixel_set]
      split
      · rename_i he
        rw [below _ he]
        simp [pixel, he, hp]
      · rfl
    · rename_i hp
      rw [ih, if_neg (by omega)]

end Sys2Proof.Machine
end

