-- ==== Sys2Proof/Laws/PerInstr.lean ====
section
/-! SUPPORT. Statements made per instruction: the fixed bits of every encoding are those of its row of the opcode map
(R53). -/

namespace Sys2Proof.Laws

/-! ### Masking a format -/

theorem and_append_append (m n : Nat) (x u : BitVec m) (y v : BitVec n) :
    (x ++ y) &&& (u ++ v) = (x &&& u) ++ (y &&& v) := BitVec.and_append

theorem and_none (n : Nat) (x : BitVec n) : x &&& 0 = 0 := BitVec.and_zero
theorem and_nibble (x : BitVec 4) : x &&& 0xF = x := BitVec.and_allOnes
theorem and_byte (x : Byte) : x &&& 0xFF = x := BitVec.and_allOnes

theorem formatA_and (op : BitVec 4) (a : Addr) : formatA op a &&& 0xF000 = formatA op 0 := by
  have h := and_append_append 4 12 op 0xF a 0
  rw [and_nibble, and_none] at h
  exact h

/-- The first nibble of two is kept. -/
theorem nibbles_and_first (op : BitVec 4) (x : Reg) : (op ++ nibbleBits x) &&& (0xF0 : BitVec 8) = op ++ nibbleBits 0 := by
  have h := and_append_append 4 4 op 0xF (nibbleBits x) 0
  rw [and_nibble, and_none] at h
  exact h

/-- The first nibble of three is kept. -/
theorem nibbles_and_first_of_three (op : BitVec 4) (x y : Reg) :
    (op ++ nibbleBits x ++ nibbleBits y) &&& (0xF00 : BitVec 12) = op ++ nibbleBits 0 ++ nibbleBits 0 := by
  have h := and_append_append 8 4 (op ++ nibbleBits x) 0xF0 (nibbleBits y) 0
  rw [nibbles_and_first, and_none] at h
  exact h

theorem formatXK_and_op (op : BitVec 4) (x : Reg) (k : Byte) : formatXK op x k &&& 0xF000 = formatXK op 0 0 := by
  have h := and_append_append 8 8 (op ++ nibbleBits x) 0xF0 k 0
  rw [nibbles_and_first, and_none] at h
  exact h

theorem formatXK_and_sub (op : BitVec 4) (x : Reg) (k : Byte) : formatXK op x k &&& 0xF0FF = formatXK op 0 k := by
  have h := and_append_append 8 8 (op ++ nibbleBits x) 0xF0 k 0xFF
  rw [nibbles_and_first, and_byte] at h
  exact h

theorem formatXY_and_op (op : BitVec 4) (x y : Reg) (n : BitVec 4) :
    formatXY op x y n &&& 0xF000 = formatXY op 0 0 0 := by
  have h := and_append_append 12 4 (op ++ nibbleBits x ++ nibbleBits y) 0xF00 n 0
  rw [nibbles_and_first_of_three, and_none] at h
  exact h

theorem formatXY_and_sub (op : BitVec 4) (x y : Reg) (n : BitVec 4) :
    formatXY op x y n &&& 0xF00F = formatXY op 0 0 n := by
  have h := and_append_append 12 4 (op ++ nibbleBits x ++ nibbleBits y) 0xF00 n 0xF
  rw [nibbles_and_first_of_three, and_nibble] at h
  exact h

end Sys2Proof.Laws

namespace Sys2Proof.Laws.FixedBits

/-- The encoding of an instruction has the fixed bits of its row: `w & mask = match` (R53). -/
def Statement (i : Instr) : Prop := ∀ row, opcodeRow i = some row → encode i &&& row.mask = row.value

/-- The statement, once the row is read off. -/
theorem of_row (i : Instr) (row : OpcodeRow) (hr : opcodeRow i = some row) (h : encode i &&& row.mask = row.value) :
    Statement i := by
  intro r hr'
  rw [hr] at hr'
  cases hr'
  exact h

theorem cls : Statement .cls := of_row _ _ rfl rfl
theorem ret : Statement .ret := of_row _ _ rfl rfl
theorem sys (nnn : Addr) : Statement (.sys nnn) := of_row _ _ rfl ((formatA_and _ _).trans rfl)
theorem jp (nnn : Addr) : Statement (.jp nnn) := of_row _ _ rfl ((formatA_and _ _).trans rfl)
theorem call (nnn : Addr) : Statement (.call nnn) := of_row _ _ rfl ((formatA_and _ _).trans rfl)
theorem seVxKk (x : Reg) (kk : Byte) : Statement (.seVxKk x kk) := of_row _ _ rfl ((formatXK_and_op _ _ _).trans rfl)
theorem sneVxKk (x : Reg) (kk : Byte) : Statement (.sneVxKk x kk) := of_row _ _ rfl ((formatXK_and_op _ _ _).trans rfl)
theorem seVxVy (x y : Reg) : Statement (.seVxVy x y) := of_row _ _ rfl ((formatXY_and_sub _ _ _ _).trans rfl)
theorem ldVxKk (x : Reg) (kk : Byte) : Statement (.ldVxKk x kk) := of_row _ _ rfl ((formatXK_and_op _ _ _).trans rfl)
theorem addVxKk (x : Reg) (kk : Byte) : Statement (.addVxKk x kk) := of_row _ _ rfl ((formatXK_and_op _ _ _).trans rfl)
theorem ldVxVy (x y : Reg) : Statement (.ldVxVy x y) := of_row _ _ rfl ((formatXY_and_sub _ _ _ _).trans rfl)
theorem orVxVy (x y : Reg) : Statement (.orVxVy x y) := of_row _ _ rfl ((formatXY_and_sub _ _ _ _).trans rfl)
theorem andVxVy (x y : Reg) : Statement (.andVxVy x y) := of_row _ _ rfl ((formatXY_and_sub _ _ _ _).trans rfl)
theorem xorVxVy (x y : Reg) : Statement (.xorVxVy x y) := of_row _ _ rfl ((formatXY_and_sub _ _ _ _).trans rfl)
theorem addVxVy (x y : Reg) : Statement (.addVxVy x y) := of_row _ _ rfl ((formatXY_and_sub _ _ _ _).trans rfl)
theorem subVxVy (x y : Reg) : Statement (.subVxVy x y) := of_row _ _ rfl ((formatXY_and_sub _ _ _ _).trans rfl)
theorem shrVxVy (x y : Reg) : Statement (.shrVxVy x y) := of_row _ _ rfl ((formatXY_and_sub _ _ _ _).trans rfl)
theorem subnVxVy (x y : Reg) : Statement (.subnVxVy x y) := of_row _ _ rfl ((formatXY_and_sub _ _ _ _).trans rfl)
theorem shlVxVy (x y : Reg) : Statement (.shlVxVy x y) := of_row _ _ rfl ((formatXY_and_sub _ _ _ _).trans rfl)
theorem sneVxVy (x y : Reg) : Statement (.sneVxVy x y) := of_row _ _ rfl ((formatXY_and_sub _ _ _ _).trans rfl)
theorem ldINnn (nnn : Addr) : Statement (.ldINnn nnn) := of_row _ _ rfl ((formatA_and _ _).trans rfl)
theorem jpV0 (nnn : Addr) : Statement (.jpV0 nnn) := of_row _ _ rfl ((formatA_and _ _).trans rfl)
theorem rand (x : Reg) (kk : Byte) : Statement (.rand x kk) := of_row _ _ rfl ((formatXK_and_op _ _ _).trans rfl)
theorem drw (x y : Reg) (n : Fin 16) : Statement (.drw x y n) := of_row _ _ rfl ((formatXY_and_op _ _ _ _).trans rfl)
theorem skp (x : Reg) : Statement (.skp x) := of_row _ _ rfl ((formatXK_and_sub _ _ _).trans rfl)
theorem sknp (x : Reg) : Statement (.sknp x) := of_row _ _ rfl ((formatXK_and_sub _ _ _).trans rfl)
theorem ldVxDt (x : Reg) : Statement (.ldVxDt x) := of_row _ _ rfl ((formatXK_and_sub _ _ _).trans rfl)
theorem ldVxK (x : Reg) : Statement (.ldVxK x) := of_row _ _ rfl ((formatXK_and_sub _ _ _).trans rfl)
theorem ldDtVx (x : Reg) : Statement (.ldDtVx x) := of_row _ _ rfl ((formatXK_and_sub _ _ _).trans rfl)
theorem ldStVx (x : Reg) : Statement (.ldStVx x) := of_row _ _ rfl ((formatXK_and_sub _ _ _).trans rfl)
theorem addIVx (x : Reg) : Statement (.addIVx x) := of_row _ _ rfl ((formatXK_and_sub _ _ _).trans rfl)
theorem ldFVx (x : Reg) : Statement (.ldFVx x) := of_row _ _ rfl ((formatXK_and_sub _ _ _).trans rfl)
theorem ldBcdVx (x : Reg) : Statement (.ldBcdVx x) := of_row _ _ rfl ((formatXK_and_sub _ _ _).trans rfl)
theorem ldIVx (x : Reg) : Statement (.ldIVx x) := of_row _ _ rfl ((formatXK_and_sub _ _ _).trans rfl)
theorem ldVxI (x : Reg) : Statement (.ldVxI x) := of_row _ _ rfl ((formatXK_and_sub _ _ _).trans rfl)
theorem raw (w : Word) : Statement (.raw w) := fun _ h => nomatch h

end Sys2Proof.Laws.FixedBits
end

