-- ==== Sys2Proof/Tests/Slice0.lean ====
section
/-! SUPPORT. The model's own tests. Words and end states are those of the encodings of 30_encoding.md (R51, R53), of the
examples in the rules, and of 95_test_vectors.md. The last part shows, for every statement with hypotheses, a state that
meets them. -/

namespace Sys2Proof.Tests

open Sys2Proof.Machine

/-! ### Decoding: one word for every row, written out from its encoding -/

theorem test_decode_cls : decode 0x00E0 = .cls := by decide
theorem test_decode_ret : decode 0x00EE = .ret := by decide
theorem test_decode_sys : decode 0x00E1 = .sys 0x0E1 := by decide
theorem test_decode_jp : decode 0x1208 = .jp 0x208 := by decide
theorem test_decode_call : decode 0x2210 = .call 0x210 := by decide
theorem test_decode_se_kk : decode 0x3100 = .seVxKk 1 0x00 := by decide
theorem test_decode_sne_kk : decode 0x4205 = .sneVxKk 2 0x05 := by decide
theorem test_decode_se_reg : decode 0x5340 = .seVxVy 3 4 := by decide
theorem test_decode_ld_kk : decode 0x60FE = .ldVxKk 0 0xFE := by decide
theorem test_decode_add_kk : decode 0x71FF = .addVxKk 1 0xFF := by decide
theorem test_decode_ld_reg : decode 0x8010 = .ldVxVy 0 1 := by decide
theorem test_decode_or : decode 0x8011 = .orVxVy 0 1 := by decide
theorem test_decode_and : decode 0x8012 = .andVxVy 0 1 := by decide
theorem test_decode_xor : decode 0x8013 = .xorVxVy 0 1 := by decide
theorem test_decode_add_reg : decode 0x8F14 = .addVxVy 0xF 1 := by decide
theorem test_decode_sub : decode 0x8015 = .subVxVy 0 1 := by decide
theorem test_decode_shr : decode 0x8126 = .shrVxVy 1 2 := by decide
theorem test_decode_subn : decode 0x8017 = .subnVxVy 0 1 := by decide
theorem test_decode_shl : decode 0x812E = .shlVxVy 1 2 := by decide
theorem test_decode_sne_reg : decode 0x9340 = .sneVxVy 3 4 := by decide
theorem test_decode_ld_i : decode 0xA300 = .ldINnn 0x300 := by decide
theorem test_decode_jp_v0 : decode 0xB123 = .jpV0 0x123 := by decide
theorem test_decode_rand : decode 0xC3FF = .rand 3 0xFF := by decide
theorem test_decode_drw : decode 0xD12F = .drw 1 2 15 := by decide
theorem test_decode_skp : decode 0xE19E = .skp 1 := by decide
theorem test_decode_sknp : decode 0xE0A1 = .sknp 0 := by decide
theorem test_decode_ld_vx_dt : decode 0xF107 = .ldVxDt 1 := by decide
theorem test_decode_ld_vx_k : decode 0xF30A = .ldVxK 3 := by decide
theorem test_decode_ld_dt : decode 0xF015 = .ldDtVx 0 := by decide
theorem test_decode_ld_st : decode 0xF318 = .ldStVx 3 := by decide
theorem test_decode_add_i : decode 0xF21E = .addIVx 2 := by decide
theorem test_decode_ld_f : decode 0xF029 = .ldFVx 0 := by decide
theorem test_decode_ld_bcd : decode 0xF033 = .ldBcdVx 0 := by decide
theorem test_decode_store : decode 0xF155 = .ldIVx 1 := by decide
theorem test_decode_load : decode 0xF265 = .ldVxI 2 := by decide
theorem test_decode_raw : decode 0x8128 = .raw 0x8128 := by decide

theorem test_decode_big_endian : decodeBytes [0x60, 0x2A, 0x77] = .ok (.ldVxKk 0 0x2A, [0x77]) := by decide
theorem test_decode_truncated : decodeBytes [0x60] = .error .truncated := by decide
theorem test_decode_table_word : decodeTableWord 16 0xF165 = some (.ldVxI 1) := by decide

/-! ### Well-formedness: an ill-formed term for each check -/

theorem test_sys_0E0_ill_formed : (Instr.sys 0x0E0).wellFormed = false := by decide
theorem test_sys_0EE_ill_formed : (Instr.sys 0x0EE).wellFormed = false := by decide
theorem test_raw_6000_ill_formed : (Instr.raw 0x6000).wellFormed = false ∧ encode? (.raw 0x6000) = none := by decide
theorem test_raw_group_5_ill_formed : (Instr.raw 0x5120).wellFormed = false := by decide
theorem test_raw_group_8_ill_formed : (Instr.raw 0x812E).wellFormed = false := by decide
theorem test_raw_group_9_ill_formed : (Instr.raw 0x9120).wellFormed = false := by decide
theorem test_raw_group_E_ill_formed : (Instr.raw 0xE19E).wellFormed = false := by decide
theorem test_raw_group_F_ill_formed : (Instr.raw 0xF165).wellFormed = false := by decide
theorem test_raw_FFFF_well_formed : (Instr.raw 0xFFFF).wellFormed = true := by decide

/-! ### One step on a small state -/

/-- The outcome is a next state with a property. -/
def answers (o : Host.Outcome State Fault Refusal) (p : State → Bool) : Bool :=
  match o with
  | .next t => p t
  | .fault _ => false
  | .refused _ => false

/-- A reset machine with its first registers set and a word at 0x200. -/
def start (w : Word) (regs : List Byte) : State := (State.reset.setVs 0 regs).placeWord w

/-- The same with VF set. -/
def startF (w : Word) (f : Byte) (regs : List Byte) : State := (start w regs).setV vF f

/-- The same with I at 0x300 and bytes there. -/
def startI (w : Word) (regs bytes : List Byte) : State := ((start w regs).setIndex 0x300).pokeBytes 0x300 bytes

/-- The state step answers with (itself where it stops). -/
def after (s : State) : State :=
  match step s with
  | .next t => t
  | .fault _ => s
  | .refused _ => s

theorem test_cls_clears :
    answers (step ({ startF 0x00E0 5 [] with fb := Vector.replicate 32 7 })) (fun t => t.fb == Vector.replicate 32 0 && t.getV vF == 5) := by decide
theorem test_ret_pops :
    answers (step ({ start 0x00EE [] with sp := 1, stack := (Vector.replicate 16 0).set 0 0x206 })) (fun t => t.pc == 0x206 && t.sp == 0 && t.stackSlot 0 == 0x206) := by decide
theorem test_ret_underflows :
    answers (step (start 0x00EE [])) (fun t => t.stepResult == .fatalFault 4 0 && t.pc == 0x200 && t.halted) := by decide
theorem test_sys_unimplemented :
    answers (step (start 0x0123 [])) (fun t => t.stepResult == .unimplemented 0x200 0x0123 && t.pc == 0x200) := by decide
theorem test_jp_jumps : answers (step (start 0x1208 [])) (fun t => t.pc == 0x208) := by decide
theorem test_call_pushes :
    answers (step ({ start 0x2210 [] with pc := 0xFFE }.placeWord 0x2300)) (fun t => t.stackSlot 0 == 0x1000 && t.sp == 1 && t.pc == 0x300) := by decide
theorem test_call_overflows :
    answers (step ({ start 0x2300 [] with sp := 16 })) (fun t => t.stepResult == .fatalFault 3 16 && t.pc == 0x200 && t.sp == 16 && t.faultWord == 0x2300) := by decide
theorem test_se_kk_skips : answers (step (startF 0x3F01 1 [])) (fun t => t.pc == 0x204) := by decide
theorem test_sne_kk_does_not_skip : answers (step (start 0x4205 [0, 0, 5])) (fun t => t.pc == 0x202) := by decide
theorem test_se_reg_skips : answers (step (start 0x5340 [0, 0, 0, 7, 7])) (fun t => t.pc == 0x204) := by decide
theorem test_sne_reg_skips : answers (step (start 0x9340 [0, 0, 0, 7, 8])) (fun t => t.pc == 0x204) := by decide
theorem test_sne_reg_same_never_skips :
    answers (step (start 0x9330 [0, 0, 0, 7])) (fun t => t.pc == 0x202) := by decide
theorem test_ld_kk : answers (step (start 0x6F12 [])) (fun t => t.getV vF == 0x12) := by decide
theorem test_add_kk_wraps :
    answers (step (startF 0x7001 0x55 [0xFF])) (fun t => t.getV 0 == 0 && t.getV vF == 0x55) := by decide
theorem test_ld_reg : answers (step (start 0x8010 [0, 0x33])) (fun t => t.getV 0 == 0x33) := by decide
theorem test_or_keeps_vF :
    answers (step (startF 0x8011 7 [0x0F, 0xF0])) (fun t => t.getV 0 == 0xFF && t.getV vF == 7) := by decide
theorem test_or_resets_vF :
    answers (step ({ startF 0x8011 7 [0x0F, 0xF0] with cfg := { Config.default with logicResetsVf := true } })) (fun t => t.getV 0 == 0xFF && t.getV vF == 0) := by decide
theorem test_and_masks : answers (step (start 0x8012 [0x3C, 0x0F])) (fun t => t.getV 0 == 0x0C) := by decide
theorem test_xor_clears : answers (step (start 0x8223 [0, 0, 0x5A])) (fun t => t.getV 2 == 0) := by decide
theorem test_add_reg_carries :
    answers (step (start 0x8014 [0xFF, 1])) (fun t => t.getV 0 == 0 && t.getV vF == 1) := by decide
theorem test_add_reg_flag_over_result :
    answers (step (startF 0x8F14 0x10 [0, 0x20])) (fun t => t.getV vF == 0) := by decide
theorem test_sub_borrows :
    answers (step (start 0x8015 [1, 2])) (fun t => t.getV 0 == 0xFF && t.getV vF == 0) := by decide
theorem test_sub_equal : answers (step (start 0x8015 [5, 5])) (fun t => t.getV 0 == 0 && t.getV vF == 1) := by decide
theorem test_subn_order : answers (step (start 0x8017 [3, 5])) (fun t => t.getV 0 == 2 && t.getV vF == 1) := by decide
theorem test_subn_borrows :
    answers (step (start 0x8017 [5, 3])) (fun t => t.getV 0 == 0xFE && t.getV vF == 0) := by decide
theorem test_shr_shifts_vx :
    answers (step (start 0x8016 [5, 2])) (fun t => t.getV 0 == 2 && t.getV vF == 1) := by decide
theorem test_shr_shifts_vy :
    answers (step ({ start 0x8016 [0, 3] with cfg := { Config.default with shiftUsesVy := true } })) (fun t => t.getV 0 == 1 && t.getV vF == 1) := by decide
theorem test_shl_shifts : answers (step (start 0x800E [0x81])) (fun t => t.getV 0 == 2 && t.getV vF == 1) := by decide
theorem test_shl_flag_over_result : answers (step (startF 0x8FFE 0x81 [])) (fun t => t.getV vF == 1) := by decide
theorem test_rand_masks :
    answers (step ({ start 0xC00F [] with draw := 0xAB })) (fun t => t.getV 0 == 0x0B) := by decide
theorem test_ld_i : answers (step (start 0xA123 [])) (fun t => t.i == 0x123) := by decide
theorem test_add_i_wraps :
    answers (step ({ startF 0xF01E 9 [1] with i := 0xFFFF })) (fun t => t.i == 0 && t.getV vF == 9) := by decide
theorem test_ld_f_low_nibble : answers (step (start 0xF029 [0x1A])) (fun t => t.i == 0x32) := by decide
theorem test_ld_f_font_base :
    answers (step ({ start 0xF029 [0] with cfg := { Config.default with fontBase := 0x050 } })) (fun t => t.i == 0x50) := by decide
theorem test_bcd_digits :
    answers (step (startI 0xF033 [255] [])) (fun t => t.readBytes 0x300 3 == [2, 5, 5] && t.i == 0x300) := by decide
theorem test_bcd_out_of_bounds :
    answers (step ({ start 0xF033 [123] with i := 0xFFE })) (fun t => t.stepResult == .fatalFault 5 0x1000 && t.readBytes 0xFFE 2 == [0, 0]) := by decide
theorem test_store_registers :
    answers (step (startI 0xF155 [1, 2] [])) (fun t => t.readBytes 0x300 3 == [1, 2, 0] && t.i == 0x300) := by decide
theorem test_store_increments_i :
    answers (step ({ startI 0xF155 [1, 2] [] with cfg := { Config.default with loadstoreIncrementsI := true } })) (fun t => t.readBytes 0x300 2 == [1, 2] && t.i == 0x302) := by decide
theorem test_load_registers :
    answers (step (startI 0xF265 [] [2, 5, 4, 9])) (fun t => t.getVs 3 == [2, 5, 4, 0]) := by decide
theorem test_load_out_of_bounds :
    answers (step ({ start 0xF165 [0x11] with i := 0xFFF })) (fun t => t.stepResult == .fatalFault 5 0x1000 && t.getV 0 == 0x11) := by decide
theorem test_drw_clips_right :
    answers (step (startI 0xD011 [60, 0] [0xFF])) (fun t => t.fb == (Vector.replicate 32 0).set 0 0xF && t.getV vF == 0) := by decide
theorem test_drw_erases :
    answers (step ({ startI 0xD001 [5] [0x80] with fb := (Vector.replicate 32 0).set 5 0x0400000000000000 })) (fun t => t.fb == Vector.replicate 32 0 && t.getV vF == 1) := by decide
theorem test_skp_pressed :
    answers (step ({ start 0xE09E [4] with keys := 0x0010 })) (fun t => t.pc == 0x204) := by decide
theorem test_skp_index :
    answers (step (start 0xE09E [0x10])) (fun t => t.stepResult == .fatalFault 6 0x10 && t.pc == 0x200) := by decide
theorem test_sknp_released : answers (step (start 0xE0A1 [4])) (fun t => t.pc == 0x204) := by decide
theorem test_sknp_index :
    answers (step (start 0xE0A1 [0xFF])) (fun t => t.stepResult == .fatalFault 6 0xFF) := by decide
theorem test_ld_vx_dt : answers (step ({ start 0xF107 [] with dt := 0x3C })) (fun t => t.getV 1 == 0x3C) := by decide
theorem test_ld_k_waits :
    answers (step (start 0xF30A [0, 0, 0, 0x55])) (fun t => t.stepResult == .waitKey && t.pc == 0x200 && t.getV 3 == 0x55) := by decide
theorem test_ld_k_lowest :
    answers (step ({ start 0xF30A [] with keys := 0x0204 })) (fun t => t.stepResult == .ok && t.getV 3 == 2 && t.pc == 0x202) := by decide
theorem test_ld_dt : answers (step (start 0xF015 [2])) (fun t => t.dt == 2) := by decide
theorem test_ld_st : answers (step (start 0xF318 [0, 0, 0, 5])) (fun t => t.st == 5 && readSound t) := by decide
theorem test_raw_unimplemented :
    answers (step (start 0xFFFF [])) (fun t => t.stepResult == .unimplemented 0x200 0xFFFF && t.faultCode == 1 && !t.halted) := by decide
theorem test_fetch_odd :
    answers (step ({ start 0 [] with pc := 0x201 })) (fun t => readStatus t == ⟨true, 2, 0x201, 0, 0x201, 3⟩ && t.pc == 0x201) := by decide
theorem test_fetch_last_address :
    answers (step ({ start 0 [] with pc := 0xFFE }.placeWord 0x1200)) (fun t => t.pc == 0x200) := by decide
theorem test_halted_repeats :
    answers (step ({ start 0x6012 [] with halted := true, lastStatus := 3, faultCode := 2, faultInfo := 0x201 })) (fun t => t.stepResult == .fatalFault 2 0x201 && t.getV 0 == 0 && t.pc == 0x200) := by decide

/-! ### The host's operations -/

/-- The outcome of step_n is an answer with a property. -/
def answersN (o : Host.Outcome StepNAnswer Fault Refusal) (p : StepNAnswer → Bool) : Bool :=
  match o with
  | .next a => p a
  | .fault _ => false
  | .refused _ => false

theorem test_reset_font : State.reset.readBytes 0 6 = [0xF0, 0x90, 0x90, 0x90, 0xF0, 0x20] := by decide
theorem test_font_end : State.reset.readBytes 0x4F 2 = [0x80, 0x00] := by decide
theorem test_load_then_run : (after (loadRom [0x12] State.reset).2).pc = 0x200 := by decide
theorem test_load_too_large : (loadRom (List.replicate 3585 0) State.reset).1 = .romTooLarge := by
  rw [loadRom, if_pos (by rw [List.length_replicate]; decide)]
theorem test_tick_stops_at_zero : (tick { State.reset with dt := 1, st := 0 }).dt = 0 ∧ (tick State.reset).st = 0 := by
  decide
theorem test_snapshot_row_major : (readFb { State.reset with fb := (Vector.replicate 32 0).set 1 0x4000000000000000 })[65]? = some true := by
  decide
theorem test_step_draw : answers (stepWith 0xAB (start 0xC00F [])) (fun t => t.getV 0 == 0x0B && t.drawCount == 1) := by decide
theorem test_step_n_counts : answersN (stepN [0, 0, 0] (start 0x1200 [])) (fun a => a.count == 3 && a.last == some .ok) := by
  decide
theorem test_step_n_stops : answersN (stepN [0, 0, 0] (start 0xFFFF [])) (fun a => a.count == 1) := by decide

/-! ### The written form (R63, R68) -/

theorem test_asm_drw : (asmLines (decode 0xD12F)).map AsmLine.text = ["DRW V1, V2, 15"] := by decide
theorem test_asm_rom : (disassemble [0xA3, 0x00, 0xF2, 0x65, 0x80]).map AsmLine.text = ["LD I, 0x300", "LD V2, I", "0x80"] := by
  decide

/-! ### Witnesses: states and operands that meet the hypotheses of the statements -/

/-- A running machine that meets the invariant. -/
theorem witness_invariant : (start 0x1200 []).Inv :=
  ⟨by decide, by decide, by decide, by decide, by decide, by decide, by decide, by decide⟩

/-- DecodeAndEncodeAreInverse, EncodingOrsFieldsIntoMatch, DecodeTakesTheMatchingRow. -/
theorem witness_codec :
    (Instr.sys 0x0E1).wellFormed = true ∧ (Instr.sys 0x0EE).wellFormed = false ∧ (Instr.raw 0x5121).wellFormed = true ∧
    opcodeRow (.drw 0 0 0) = some ⟨0xF000, 0xD000⟩ ∧ (0xDFFF : Word) &&& 0xF000 = 0xD000 ∧
    decode 0x5121 = .raw 0x5121 ∧ opcodeRow (decode 0xDFFF) = some ⟨0xF000, 0xD000⟩ := by decide

/-- StepExecutesTheDecodedWord, RegistersWrittenOnlyByTable, StateWrittenOnlyByNamedInstructions, CleanStepKeepsFaultRecord:
at the lowest and the highest fetch address. -/
theorem witness_runs :
    (start 0x8014 []).Runs ∧ State.Runs ({ start 0 [] with pc := 0xFFE }.placeWord 0xF30A) := by
  constructor <;> (unfold State.Runs; decide)

theorem witness_clean_steps :
    step (start 0x8014 []) = .next (after (start 0x8014 [])) ∧ (after (start 0x8014 [])).lastStatus = statusOk ∧
    (start 0x8014 []).nextInstr = .addVxVy 0 1 ∧
    step (start 0xF30A []) = .next (after (start 0xF30A [])) ∧
    (after (start 0xF30A [])).lastStatus = statusWaitKey := ⟨rfl, by decide, by decide, rfl, by decide⟩

/-- InvalidPcFaultsAtFetch: a boundary PC for each clause. -/
theorem witness_invalid_pc :
    State.reset.halted = false ∧ (0xFFF : Word).toNat % 2 = 1 ∧ (0x1FE : Word).toNat < 0x200 ∧
    0xFFE < (0x1000 : Word).toNat := by decide

/-- A machine halted by a fetch at 0x201. -/
def haltedState : State := after { start 0 [] with pc := 0x201 }

/-- HaltedStepChangesNothing. -/
theorem witness_halted : haltedState.halted = true ∧ haltedState.Inv :=
  ⟨by decide, by decide, by decide, by decide, by decide, by decide, by decide, by decide, by decide⟩

/-- FaultsArePreciseAndCaused: a state for every cause, none of them halted. -/
theorem witness_fault_causes :
    FaultCause (start 0x0000 []) .unimplemented ∧ FaultCause (start 0xFFFF []) .unimplemented ∧
    FaultCause { start 0 [] with pc := 0x1000 } (.pcInvalid 0x1000) ∧
    FaultCause { start 0x2300 [] with sp := 16 } (.stackOverflow 16) ∧
    FaultCause (start 0x00EE []) (.stackUnderflow 0) ∧
    FaultCause { start 0xF033 [] with i := 0xFFE } (.memOutOfBounds 0x1000) ∧
    FaultCause { start 0xF033 [] with i := 0xFFFF } (.memOutOfBounds 0xFFFF) ∧
    FaultCause (start 0xE09E [0x10]) (.keyIndexOutOfRange 0x10) := by
  refine ⟨⟨by unfold State.Runs; decide, .inl ⟨0, by decide⟩⟩, ⟨by unfold State.Runs; decide, .inr ⟨0xFFFF, by decide⟩⟩,
    ⟨rfl, by decide⟩, ⟨by unfold State.Runs; decide, rfl, by decide, 0x300, by decide⟩,
    ⟨by unfold State.Runs; decide, rfl, by decide, by decide⟩, ⟨by unfold State.Runs; decide, by decide, by decide, by decide⟩,
    ⟨by unfold State.Runs; decide, by decide, by decide, by decide⟩,
    ⟨by unfold State.Runs; decide, by decide, 0, by decide, .inl (by decide)⟩⟩

theorem witness_faulting_step :
    (start 0x00EE []).halted = false ∧ step (start 0x00EE []) = .next (after (start 0x00EE [])) ∧
    (after (start 0x00EE [])).lastStatus = statusFault := ⟨by decide, rfl, by decide⟩

/-- UnimplementedStepRepeats. -/
theorem witness_unimplemented_step :
    (start 0xFFFF []).halted = false ∧ step (start 0xFFFF []) = .next (after (start 0xFFFF [])) ∧
    (after (start 0xFFFF [])).lastStatus = statusUnimplemented := ⟨by decide, rfl, by decide⟩

/-- ParkedStateIsFixed: at the lowest and the highest fetch address. -/
theorem witness_parked :
    (start 0x1200 []).Parked ∧ State.Parked ({ start 0 [] with pc := 0xFFE }.placeWord 0x1FFE) :=
  ⟨⟨by unfold State.Runs; decide, by decide⟩, ⟨by unfold State.Runs; decide, by decide⟩⟩

/-- OnlyRandReadsTheDraw. -/
theorem witness_not_rand : (start 0x8014 []).Runs ∧ ∀ x kk, (start 0x8014 []).nextInstr ≠ .rand x kk :=
  ⟨witness_runs.1, fun x kk h => by
    have : (start 0x8014 []).nextInstr = .addVxVy 0 1 := by decide
    rw [this] at h; cases h⟩

/-- OnlyCallAndRetAboveCapacityStop: the two sides of the boundary. -/
theorem witness_above_capacity :
    16 < ({ State.reset with sp := 17 } : State).sp.toNat ∧ ({ State.reset with sp := 16 } : State).sp.toNat ≤ 16 := by
  decide

/-- InvariantHoldsAtReset, FontAddressOfLowNibble, ResetGivesListedValues: parameters that meet R7, at both ends of the
reserved range. -/
theorem witness_parameters :
    Config.default.wf = true ∧ ({ Config.default with fontBase := 0x1B0 } : Config).wf = true := by decide

/-- HostOperationsKeepInvariant, StepKeepsInvariant. -/
theorem witness_invariant_step :
    (start 0x1200 []).Inv ∧ step (start 0x1200 []) = .next (after (start 0x1200 [])) := ⟨witness_invariant, rfl⟩

/-- ByteAccessIsBoundsChecked, and the memory hypothesis of BcdStoresDigits and RegisterStoreWritesRange. -/
theorem witness_canonical_memory :
    Memory.wf (startI 0xF033 [] [1, 2]).cfg (startI 0xF033 [] [1, 2]).mem = true ∧ ¬0xFFF < 0xFFF ∧ 0xFFF < 0x1000 := by
  decide

/-- CallPushesReturnAddress and RetPopsReturnAddress: each clause at the ends of its range. -/
theorem witness_stack :
    ({ State.reset with sp := 15 } : State).sp.toNat < 16 ∧ ({ State.reset with sp := 16 } : State).sp.toNat = 16 ∧
    ({ State.reset with sp := 16 } : State).sp.toNat = (15 : Fin 16).val + 1 ∧
    ({ State.reset with sp := 1 } : State).sp.toNat = (0 : Fin 16).val + 1 ∧ State.reset.sp.toNat = 0 := by decide

/-- JumpLoadsAddress: an odd target and a low one. -/
theorem witness_bad_target :
    State.reset.halted = false ∧ (0xFFF : Addr).toNat % 2 = 1 ∧ (0x1FE : Addr).toNat < 0x200 := by decide

/-- LogicActsBitwise: each instruction, with LOGIC_RESETS_VF and without. -/
theorem witness_logic :
    ((Instr.orVxVy 0 vF = .orVxVy 0 vF ∧ (or : Bool → Bool → Bool) = or)) ∧ Config.default.logicResetsVf = false ∧
    ({ Config.default with logicResetsVf := true } : Config).logicResetsVf = true ∧ (0 : Reg) ≠ vF :=
  ⟨⟨rfl, rfl⟩, by decide, by decide, by decide⟩

/-- ShiftsMoveOneBit, AddSetsCarry, SubtractSetsNoBorrow. -/
theorem witness_shift_source :
    (5 : Nat) = (if (start 0 [5]).cfg.shiftUsesVy then ((start 0 [5]).getV 1).toNat else ((start 0 [5]).getV 0).toNat) ∧
    (0 : Reg) ≠ vF := by decide

/-- The bounds of BcdStoresDigits, RegisterStoreWritesRange, RegisterLoadReadsRange, DrawXorsPixels, DrawEqualsPixelLoop:
the last accesses inside memory and the first outside. -/
theorem witness_access_bounds :
    (0xFFD : Word).toNat + 3 ≤ 0x1000 ∧ 0x1000 < (0xFFE : Word).toNat + 3 ∧
    (0xFF0 : Word).toNat + ((15 : Reg).val + 1) ≤ 0x1000 ∧ 0x1000 < (0xFF1 : Word).toNat + ((15 : Reg).val + 1) ∧
    (0xFF1 : Word).toNat + (15 : Fin 16).val ≤ 0x1000 ∧ 0x1000 < (0xFF2 : Word).toNat + (15 : Fin 16).val ∧
    (0 : Fin 16).val = 0 ∧ (15 : Fin 16).val ≠ 0 := by decide

/-- KeySkipsReadKeypad: the two sides of the boundary. -/
theorem witness_key_index : ((start 0 [15]).getV 0).toNat ≤ 15 ∧ 15 < ((start 0 [16]).getV 0).toNat := by decide

/-- WaitKeyTakesLowestKey: the highest key alone, and no key. -/
theorem witness_keys :
    (0x8000 : BitVec 16).getLsbD 15 = true ∧ (∀ j, j < 15 → (0x8000 : BitVec 16).getLsbD j = false) ∧
    (∀ k, k < 16 → (0 : BitVec 16).getLsbD k = false) := by decide

/-- LoadRomCopiesOrRefuses and FirstFetchAfterLoad: the two sides of the boundary, and the empty ROM. -/
theorem witness_rom :
    3584 < (List.replicate 3585 (0 : Byte)).length ∧ (List.replicate 3584 (0 : Byte)).length ≤ 3584 ∧
    State.reset.cfg.wf = true ∧ loadRom [] State.reset = (.loadOk, (loadRom [] State.reset).2) :=
  ⟨by rw [List.length_replicate]; decide, by rw [List.length_replicate], by decide, rfl⟩

/-- StepNStopsAtFirstFault: a step that stops the run and one that does not. -/
theorem witness_step_n :
    (∃ t, stepWith 0 (start 0xFFFF []) = .next t ∧ t.stepResult.stops = true) ∧
    (∃ t a, stepWith 0 (start 0x1200 []) = .next t ∧ t.stepResult.stops = false ∧ [(0 : Byte)] ≠ [] ∧
      stepN [0] t = .next a) :=
  ⟨⟨_, rfl, by decide⟩, ⟨_, _, rfl, by decide, by decide, rfl⟩⟩

/-- KeysStayAsWritten. -/
theorem witness_key_write : step (setKeys 0x00F0 (start 0x1200 [])) = .next (after (setKeys 0x00F0 (start 0x1200 []))) := rfl

end Sys2Proof.Tests
end

section
/-! PROOFS. The codec (30_encoding.md): decode and encode are inverse (R61), and an encoding is its row's match with the
fields shifted in (R60). -/

namespace Sys2Proof

/-! ### A word from its fields, once its op nibble and its sub-function are known -/

theorem formatA_of_op {w : Word} {op : Fin 16} (hop : fieldOp w = op) : formatA (BitVec.ofFin op) (fieldNnn w) = w :=
  hop ▸ formatA_fields w

theorem formatXK_of_op {w : Word} {op : Fin 16} (hop : fieldOp w = op) :
    formatXK (BitVec.ofFin op) (fieldX w) (fieldKk w) = w :=
  hop ▸ formatXK_fields w

theorem formatXK_of_op_kk {w : Word} {op : Fin 16} {kk : Byte} (hop : fieldOp w = op) (hkk : fieldKk w = kk) :
    formatXK (BitVec.ofFin op) (fieldX w) kk = w :=
  hkk ▸ formatXK_of_op hop

theorem formatXY_of_op_n {w : Word} {op n : Fin 16} (hop : fieldOp w = op) (hn : fieldN w = n) :
    formatXY (BitVec.ofFin op) (fieldX w) (fieldY w) (BitVec.ofFin n) = w :=
  hop ▸ hn ▸ formatXY_fields w

theorem formatA_injective {op : BitVec 4} {a b : Addr} (h : formatA op a = formatA op b) : a = b := by
  rw [← fieldNnn_formatA op a, h, fieldNnn_formatA]

/-! ### The ill-formed shapes: SYS with the word of CLS or RET, and RAW with the word of a row -/

theorem wellFormed_sys_iff {a : Addr} : (Instr.sys a).wellFormed = true ↔ a ≠ 0x0E0 ∧ a ≠ 0x0EE := by
  simp [Instr.wellFormed]

/-- R56's table through the fields the decoder reads: the sub-functions that a group leaves out. -/
theorem isRawWord_iff (w : Word) : isRawWord w = true ↔
    (fieldOp w = 0x5 ∧ fieldN w ≠ 0x0) ∨
    (fieldOp w = 0x8 ∧ fieldN w ∉ ([0x0, 0x1, 0x2, 0x3, 0x4, 0x5, 0x6, 0x7, 0xE] : List (Fin 16))) ∨
    (fieldOp w = 0x9 ∧ fieldN w ≠ 0x0) ∨
    (fieldOp w = 0xE ∧ fieldKk w ∉ ([0x9E, 0xA1] : List Byte)) ∨
    (fieldOp w = 0xF ∧ fieldKk w ∉ ([0x07, 0x0A, 0x15, 0x18, 0x1E, 0x29, 0x33, 0x55, 0x65] : List Byte)) := by
  have hsub : ∀ n : BitVec 4, n ∈ ([0x8, 0x9, 0xA, 0xB, 0xC, 0xD, 0xF] : List (BitVec 4)) ↔
      n.toFin ∉ ([0x0, 0x1, 0x2, 0x3, 0x4, 0x5, 0x6, 0x7, 0xE] : List (Fin 16)) := by decide
  simp only [isRawWord, fieldOp, fieldN, nibbleAt, fieldKk]
  generalize w.extractLsb' 12 4 = op
  generalize w.extractLsb' 0 4 = n
  simp only [Bool.or_eq_true, Bool.and_eq_true, hsub, beq_iff_eq, bne_iff_ne, ← BitVec.toFin_inj, Bool.not_eq_true',
    List.contains_eq_mem, decide_eq_false_iff_not, decide_eq_true_eq, or_assoc, ne_eq]
  rfl

theorem decode_of_isRawWord {w : Word} (h : isRawWord w = true) : decode w = .raw w := by
  obtain ⟨hop, hn⟩ | ⟨hop, hn⟩ | ⟨hop, hn⟩ | ⟨hop, hkk⟩ | ⟨hop, hkk⟩ := (isRawWord_iff w).mp h
  · simp [decode, hop, hn]
  · simp only [decode, hop, decodeGroup8]
    split
    case h_10 => rfl
    all_goals next hn' => exact absurd hn (by simp [hn'])
  · simp [decode, hop, hn]
  · simp only [decode, hop, decodeGroupE]
    split_ifs
    case neg => rfl
    all_goals next hkk' => exact absurd hkk (by simp [hkk'])
  · simp only [decode, hop, decodeGroupF]
    split_ifs
    case neg => rfl
    all_goals next hkk' => exact absurd hkk (by simp [hkk'])

/-! ### Every word: its decoding encodes back to it -/

theorem encode_decodeGroup0 {w : Word} (hop : fieldOp w = 0x0) : encode (decodeGroup0 w) = w := by
  unfold decodeGroup0
  split_ifs with hcls hret
  · exact hcls.symm
  · exact hret.symm
  · exact formatA_of_op hop

theorem encode_decodeGroup8 {w : Word} (hop : fieldOp w = 0x8) : encode (decodeGroup8 w) = w := by
  unfold decodeGroup8
  split
  case h_10 => rfl
  all_goals next hn => exact formatXY_of_op_n hop hn

theorem encode_decodeGroupE {w : Word} (hop : fieldOp w = 0xE) : encode (decodeGroupE w) = w := by
  unfold decodeGroupE
  split_ifs
  case neg => rfl
  all_goals next hkk => exact formatXK_of_op_kk hop hkk

theorem encode_decodeGroupF {w : Word} (hop : fieldOp w = 0xF) : encode (decodeGroupF w) = w := by
  unfold decodeGroupF
  split_ifs
  case neg => rfl
  all_goals next hkk => exact formatXK_of_op_kk hop hkk

theorem encode_decode (w : Word) : encode (decode w) = w := by
  unfold decode
  split
  case h_1 hop => exact encode_decodeGroup0 hop
  case h_2 hop | h_3 hop | h_11 hop | h_12 hop => exact formatA_of_op hop
  case h_4 hop | h_5 hop | h_7 hop | h_8 hop | h_13 hop => exact formatXK_of_op hop
  case h_6 hop | h_10 hop =>
    split_ifs with hn
    · exact formatXY_of_op_n hop hn
    · rfl
  case h_9 hop => exact encode_decodeGroup8 hop
  case h_14 hop => exact formatXY_of_op_n hop rfl
  case h_15 hop => exact encode_decodeGroupE hop
  case h_16 =>
    have hop : fieldOp w = 0xF := by grind
    exact encode_decodeGroupF hop

/-! ### Every word: its decoding is well formed -/

theorem wellFormed_decodeGroup0 {w : Word} (hop : fieldOp w = 0x0) : (decodeGroup0 w).wellFormed = true := by
  unfold decodeGroup0
  split_ifs with hcls hret
  · rfl
  · rfl
  · have hw := formatA_of_op hop
    refine wellFormed_sys_iff.mpr ⟨fun h => hcls ?_, fun h => hret ?_⟩ <;> rw [← hw, h] <;> rfl

theorem wellFormed_decodeGroup8 {w : Word} (hop : fieldOp w = 0x8) : (decodeGroup8 w).wellFormed = true := by
  unfold decodeGroup8
  split
  case h_10 =>
    apply (isRawWord_iff w).mpr
    simp_all
  all_goals rfl

theorem wellFormed_decodeGroupE {w : Word} (hop : fieldOp w = 0xE) : (decodeGroupE w).wellFormed = true := by
  unfold decodeGroupE
  split_ifs
  case neg =>
    apply (isRawWord_iff w).mpr
    simp_all
  all_goals rfl

theorem wellFormed_decodeGroupF {w : Word} (hop : fieldOp w = 0xF) : (decodeGroupF w).wellFormed = true := by
  unfold decodeGroupF
  split_ifs
  case neg =>
    apply (isRawWord_iff w).mpr
    simp_all
  all_goals rfl

theorem wellFormed_decode (w : Word) : (decode w).wellFormed = true := by
  unfold decode
  split
  case h_1 hop => exact wellFormed_decodeGroup0 hop
  case h_6 hop | h_10 hop =>
    split_ifs with hn
    · rfl
    · exact (isRawWord_iff w).mpr (by simp [hop, hn])
  case h_9 hop => exact wellFormed_decodeGroup8 hop
  case h_15 hop => exact wellFormed_decodeGroupE hop
  case h_16 =>
    have hop : fieldOp w = 0xF := by grind
    exact wellFormed_decodeGroupF hop
  all_goals rfl

/-! ### Every well-formed instruction: its encoding decodes back to it -/

/-- Each constructor has one format, whose fields are read back; `-Fin.ofNat_eq_cast` keeps the nibble 1 a literal, which the
decoder's match needs. Only SYS and RAW use the hypothesis. -/
theorem decode_encode {i : Instr} (h : i.wellFormed = true) : decode (encode i) = i := by
  cases i with
  | cls | ret => rfl
  | sys nnn =>
    obtain ⟨hcls, hret⟩ := wellFormed_sys_iff.mp h
    have hcls' : formatA 0x0 nnn ≠ 0x00E0 := fun hw => hcls (formatA_injective (b := 0x0E0) hw)
    have hret' : formatA 0x0 nnn ≠ 0x00EE := fun hw => hret (formatA_injective (b := 0x0EE) hw)
    have hop : fieldOp (formatA 0x0 nnn) = 0x0 := fieldOp_formatA 0x0 nnn
    simp only [encode, decode, hop, decodeGroup0, if_neg hcls', if_neg hret', fieldNnn_formatA]
  | jp nnn | call nnn | ldINnn nnn | jpV0 nnn => simp [encode, decode, -Fin.ofNat_eq_cast]
  | seVxKk x kk | sneVxKk x kk | ldVxKk x kk | addVxKk x kk | rand x kk => simp [encode, decode]
  | seVxVy x y | sneVxVy x y => simp [encode, decode]
  | ldVxVy x y | orVxVy x y | andVxVy x y | xorVxVy x y | addVxVy x y | subVxVy x y | shrVxVy x y | subnVxVy x y
  | shlVxVy x y => simp [encode, decode, decodeGroup8, -Fin.ofNat_eq_cast]
  | drw x y n => simp [encode, decode, nibbleBits]
  | skp x | sknp x => simp [encode, decode, decodeGroupE]
  | ldVxDt x | ldVxK x | ldDtVx x | ldStVx x | addIVx x | ldFVx x | ldBcdVx x | ldIVx x | ldVxI x =>
    simp [encode, decode, decodeGroupF]
  | raw w => exact decode_of_isRawWord h

/-! ### An encoding is the OR of its fields at their places -/

/-- A nibble shifted in above lower bits is added to them. -/
theorem toNat_nibble_or {f k : Nat} {v : Word} (hf : f < 2 ^ 4) (hk : k ≤ 12) (hv : v.toNat < 2 ^ k) :
    ((BitVec.ofNat 16 f <<< k) ||| v).toNat = f * 2 ^ k + v.toNat := by
  have hfit : f * 2 ^ k < 2 ^ 16 := calc
    f * 2 ^ k < 2 ^ 4 * 2 ^ k := Nat.mul_lt_mul_of_pos_right hf (Nat.two_pow_pos k)
    _ = 2 ^ (4 + k) := (Nat.pow_add 2 4 k).symm
    _ ≤ 2 ^ 16 := Nat.pow_le_pow_right (by decide) (by omega)
  rw [BitVec.toNat_or, BitVec.toNat_shiftLeft, BitVec.toNat_ofNat, Nat.mod_eq_of_lt (a := f) (by omega), Nat.shiftLeft_eq,
    Nat.mod_eq_of_lt hfit, ← Nat.shiftLeft_eq, Nat.shiftLeft_add_eq_or_of_lt hv]

theorem formatA_eq_or (op : BitVec 4) (a : Addr) : formatA op a = (BitVec.ofNat 16 op.toNat <<< 12) ||| a.setWidth 16 := by
  have ha : (a.setWidth 16).toNat = a.toNat := BitVec.toNat_setWidth_of_le (by decide)
  apply BitVec.eq_of_toNat_eq
  rw [formatA_toNat, toNat_nibble_or op.isLt (by decide) (ha ▸ a.isLt), ha]
  omega

theorem formatXK_eq_or (op : BitVec 4) (x : Reg) (k : Byte) :
    formatXK op x k = (BitVec.ofNat 16 op.toNat <<< 12) ||| ((BitVec.ofNat 16 x.val <<< 8) ||| k.setWidth 16) := by
  have hk : (k.setWidth 16).toNat = k.toNat := BitVec.toNat_setWidth_of_le (by decide)
  have hx := toNat_nibble_or (v := k.setWidth 16) x.isLt (by decide : 8 ≤ 12) (hk ▸ k.isLt)
  apply BitVec.eq_of_toNat_eq
  rw [formatXK_toNat, toNat_nibble_or op.isLt (by decide) (by omega), hx, hk]
  omega

theorem formatXY_eq_or (op : BitVec 4) (x y : Reg) (n : BitVec 4) :
    formatXY op x y n = (BitVec.ofNat 16 op.toNat <<< 12) |||
      ((BitVec.ofNat 16 x.val <<< 8) ||| (BitVec.ofNat 16 y.val <<< 4) ||| BitVec.ofNat 16 n.toNat) := by
  have hn : (BitVec.ofNat 16 n.toNat).toNat = n.toNat := Nat.mod_eq_of_lt (by omega)
  have hy := toNat_nibble_or (v := BitVec.ofNat 16 n.toNat) y.isLt (by decide : 4 ≤ 12) (by omega)
  have hx := toNat_nibble_or x.isLt (by decide : 8 ≤ 12) (v := _ ||| _) (by rw [hy]; omega)
  apply BitVec.eq_of_toNat_eq
  rw [formatXY_toNat, BitVec.or_assoc, toNat_nibble_or op.isLt (by decide) (by omega), hx, hy, hn]
  omega

/-- Format XK with `kk` a sub-function, part of the row's match. -/
theorem formatXK_eq_or_sub (op : BitVec 4) (x : Reg) (k : Byte) :
    formatXK op x k = ((BitVec.ofNat 16 op.toNat <<< 12) ||| k.setWidth 16) ||| (BitVec.ofNat 16 x.val <<< 8) := by
  rw [formatXK_eq_or]
  ac_rfl

/-- Format XY with the last nibble a sub-function, part of the row's match. -/
theorem formatXY_eq_or_sub (op : BitVec 4) (x y : Reg) (s : BitVec 4) :
    formatXY op x y s = ((BitVec.ofNat 16 op.toNat <<< 12) ||| BitVec.ofNat 16 s.toNat) |||
      ((BitVec.ofNat 16 x.val <<< 8) ||| (BitVec.ofNat 16 y.val <<< 4)) := by
  rw [formatXY_eq_or]
  ac_rfl

/-- R60 for the 35 rows: the op nibble, and the sub-function where the row has one, are the row's match. -/
theorem encode_eq_value_or_fields {i : Instr} {row : OpcodeRow} (hr : opcodeRow i = some row) :
    encode i = row.value ||| fieldBits i := by
  cases i with
  | raw w => nomatch hr
  | cls | ret => cases hr; rfl
  | sys nnn | jp nnn | call nnn | ldINnn nnn | jpV0 nnn => cases hr; exact formatA_eq_or _ nnn
  | seVxKk x kk | sneVxKk x kk | ldVxKk x kk | addVxKk x kk | rand x kk => cases hr; exact formatXK_eq_or _ x kk
  | seVxVy x y | ldVxVy x y | orVxVy x y | andVxVy x y | xorVxVy x y | addVxVy x y | subVxVy x y | shrVxVy x y
  | subnVxVy x y | shlVxVy x y | sneVxVy x y => cases hr; exact formatXY_eq_or_sub _ x y _
  | drw x y n => cases hr; exact formatXY_eq_or 0xD x y (nibbleBits n)
  | skp x | sknp x | ldVxDt x | ldVxK x | ldDtVx x | ldStVx x | addIVx x | ldFVx x | ldBcdVx x | ldIVx x | ldVxI x =>
    cases hr; exact formatXK_eq_or_sub _ x _

/-! ### A word that matches a row is no RAW word -/

/-- A nibble that the mask keeps whole can be read off the masked word. -/
theorem nibbleAt_of_and {w m v : Word} {lo : Nat} (hm : nibbleAt m lo = 0xF) (h : w &&& m = v) :
    nibbleAt w lo = nibbleAt v lo := by
  have hm' : m.extractLsb' lo 4 = 0xF := BitVec.toFin_inj.mp hm
  rw [← h, nibbleAt, nibbleAt, BitVec.extractLsb'_and, hm', Laws.and_nibble]

theorem fieldKk_of_and {w m v : Word} (hm : fieldKk m = 0xFF) (h : w &&& m = v) : fieldKk w = fieldKk v := by
  have hm' : m.extractLsb' 0 8 = 0xFF := hm
  rw [← h, fieldKk, fieldKk, BitVec.extractLsb'_and, hm', Laws.and_byte]

/-- Whether a word is RAW depends on its op nibble and, in the groups that have them, on the sub-function bits. -/
theorem isRawWord_congr {w v : Word} (hop : fieldOp w = fieldOp v)
    (hn : fieldOp v ∈ ([0x5, 0x8, 0x9] : List (Fin 16)) → fieldN w = fieldN v)
    (hkk : fieldOp v ∈ ([0xE, 0xF] : List (Fin 16)) → fieldKk w = fieldKk v) : isRawWord w = isRawWord v := by
  rw [Bool.eq_iff_iff, isRawWord_iff, isRawWord_iff, hop]
  grind

/-- A row fixes the op nibble, and in groups 5, 8, 9, E and F all of the sub-function too. -/
theorem mask_covers_selectors {i : Instr} {row : OpcodeRow} (hr : opcodeRow i = some row) :
    fieldOp row.mask = 0xF ∧
    (fieldOp row.value ∈ ([0x5, 0x8, 0x9] : List (Fin 16)) → fieldN row.mask = 0xF) ∧
    (fieldOp row.value ∈ ([0xE, 0xF] : List (Fin 16)) → fieldKk row.mask = 0xFF) := by
  cases i with
  | raw w => nomatch hr
  | _ => cases hr; decide

theorem isRawWord_value {i : Instr} {row : OpcodeRow} (hr : opcodeRow i = some row) : isRawWord row.value = false := by
  cases i with
  | raw w => nomatch hr
  | _ => cases hr; rfl

theorem isRawWord_eq_false_of_matches_row {w : Word} {i : Instr} {row : OpcodeRow} (hr : opcodeRow i = some row)
    (hw : w &&& row.mask = row.value) : isRawWord w = false := by
  obtain ⟨hop, hn, hkk⟩ := mask_covers_selectors hr
  rw [isRawWord_congr (nibbleAt_of_and hop hw) (fun h => nibbleAt_of_and (hn h) hw) (fun h => fieldKk_of_and (hkk h) hw)]
  exact isRawWord_value hr

end Sys2Proof

open Sys2Proof

/-- Settles O1: the three laws, each by the groups of the decoder or the shapes of the encoder. -/
theorem decodeAndEncodeAreInverse : Obligations.DecodeAndEncodeAreInverse :=
  ⟨encode_decode, wellFormed_decode, fun _ => decode_encode⟩

/-- Settles O2: the OR form row by row; the last part because a row's mask covers every bit that tells RAW words apart. -/
theorem encodingOrsFieldsIntoMatch : Obligations.EncodingOrsFieldsIntoMatch := by
  refine ⟨fun _ _ => encode_eq_value_or_fields, fun _ => rfl, fun i hi => if_pos hi, fun i hi => ?_,
    fun w hraw j row hr hw => ?_⟩
  · rw [encode?, hi]
    rfl
  · exact Bool.false_ne_true ((isRawWord_eq_false_of_matches_row hr hw).symm.trans hraw)
end

section
/-! PROOFS. The step (40_execution_cycle.md): it executes the decoding of the word at PC (R72, R74), only RAND reads the
draw, and ticks reach it through the timers alone (R81). -/

namespace Sys2Proof.Machine

variable (s : State) (r : Byte)

/-! ### Replacing the draw -/

/-- `s` with the draw `r` in place of its own. -/
def State.withDraw : State := { s with draw := r }

@[simp] theorem withDraw_keys : (s.withDraw r).keys = s.keys := rfl
@[simp] theorem getV_withDraw (x : Reg) : (s.withDraw r).getV x = s.getV x := rfl
@[simp] theorem getVs_withDraw (x : Reg) : (s.withDraw r).getVs x = s.getVs x := rfl
@[simp] theorem indexAddr_withDraw (k : Nat) : (s.withDraw r).indexAddr k = s.indexAddr k := rfl
@[simp] theorem loadByte_withDraw (a : Nat) : (s.withDraw r).loadByte a = s.loadByte a := rfl
@[simp] theorem setV_withDraw (x : Reg) (b : Byte) : (s.withDraw r).setV x b = (s.setV x b).withDraw r := rfl
@[simp] theorem pokeByte_withDraw (a : Nat) (b : Byte) :
    (s.withDraw r).pokeByte a b = (s.pokeByte a b).withDraw r := rfl

/-! ### The shared operations with another draw -/

theorem skipIf_withDraw (c : Bool) : (s.withDraw r).skipIf c = (s.skipIf c).withDraw r := by cases c <;> rfl

theorem logicFlag_withDraw : (s.withDraw r).logicFlag = s.logicFlag.withDraw r := by
  rw [State.logicFlag, State.logicFlag, apply_ite (State.withDraw · r)]
  rfl

theorem stepIndex_withDraw (x : Reg) : (s.withDraw r).stepIndex x = (s.stepIndex x).withDraw r := by
  rw [State.stepIndex, State.stepIndex, apply_ite (State.withDraw · r)]
  rfl

theorem setVs_withDraw (k : Nat) (bs : List Byte) : (s.withDraw r).setVs k bs = (s.setVs k bs).withDraw r := by
  induction bs generalizing s k with
  | nil => rfl
  | cons b bs ih =>
    simp only [State.setVs, setV_withDraw, ih]
    split <;> rfl

theorem skipOnKey_withDraw (k : Byte) (pressed : Bool) :
    (s.withDraw r).skipOnKey k pressed = (s.skipOnKey k pressed).map (State.withDraw · r) := by
  simp only [State.skipOnKey, withDraw_keys, skipIf_withDraw]
  split <;> rfl

theorem loadBytes_withDraw (a n : Nat) : (s.withDraw r).loadBytes a n = s.loadBytes a n := by
  induction n generalizing a with
  | zero => rfl
  | succ n ih => simp only [State.loadBytes, loadByte_withDraw, ih]

theorem storeBytes_withDraw (a : Nat) (bs : List Byte) :
    (s.withDraw r).storeBytes a bs = (s.storeBytes a bs).map (State.withDraw · r) := by
  induction bs generalizing s a with
  | nil => rfl
  | cons b bs ih =>
    by_cases ha : a < memSize
    · simp only [State.storeBytes, State.storeByte, if_pos ha, pokeByte_withDraw, ih]
    · simp only [State.storeBytes, State.storeByte, if_neg ha]; rfl

theorem conclude_withDraw (i : Instr) (c : Except Raise State) :
    conclude i (s.withDraw r) (c.map (State.withDraw · r)) = mapNext (State.withDraw · r) (conclude i s c) := by
  cases c <;> rfl

/-! ### Execution with another draw -/

theorem execRet_withDraw : execRet (s.withDraw r) = mapNext (State.withDraw · r) (execRet s) := by
  rw [execRet, execRet, apply_ite (mapNext _), apply_dite (mapNext _)]
  rfl

theorem execCall_withDraw (nnn : Addr) :
    execCall nnn (s.withDraw r) = mapNext (State.withDraw · r) (execCall nnn s) := by
  rw [execCall, execCall, apply_dite (mapNext _), apply_ite (mapNext _)]
  rfl

theorem execLdVxK_withDraw (x : Reg) :
    execLdVxK x (s.withDraw r) = mapNext (State.withDraw · r) (execLdVxK x s) := by
  simp only [execLdVxK, withDraw_keys]
  cases lowestKey s.keys <;> rfl

theorem execDrw_withDraw (x y : Reg) (n : Fin 16) :
    execDrw x y n (s.withDraw r) = mapNext (State.withDraw · r) (execDrw x y n s) := by
  simp only [execDrw, indexAddr_withDraw, loadBytes_withDraw]
  cases s.loadBytes (s.indexAddr 0) n.val <;> rfl

theorem execLdVxI_withDraw (x : Reg) :
    execLdVxI x (s.withDraw r) = mapNext (State.withDraw · r) (execLdVxI x s) := by
  simp only [execLdVxI, indexAddr_withDraw, loadBytes_withDraw, setVs_withDraw, stepIndex_withDraw]
  cases s.loadBytes (s.indexAddr 0) (x.val + 1) <;> rfl

theorem execLdIVx_withDraw (x : Reg) :
    execLdIVx x (s.withDraw r) = mapNext (State.withDraw · r) (execLdIVx x s) := by
  simp only [execLdIVx, indexAddr_withDraw, getVs_withDraw, storeBytes_withDraw]
  cases s.storeBytes (s.indexAddr 0) (s.getVs x) with
  | error e => rfl
  | ok t => exact congrArg retire (stepIndex_withDraw t r x)

theorem execLdBcdVx_withDraw (x : Reg) :
    execLdBcdVx x (s.withDraw r) = mapNext (State.withDraw · r) (execLdBcdVx x s) := by
  simp only [execLdBcdVx, indexAddr_withDraw, getV_withDraw, storeBytes_withDraw, conclude_withDraw]

/-- Only RAND reads the draw: every other instruction carries it over. -/
theorem exec_withDraw (i : Instr) (h : ∀ x kk, i ≠ .rand x kk) :
    exec i (s.withDraw r) = mapNext (State.withDraw · r) (exec i s) := by
  cases i with
  | rand x kk => exact absurd rfl (h x kk)
  | ret => exact execRet_withDraw s r
  | call nnn => exact execCall_withDraw s r nnn
  | seVxKk x kk | sneVxKk x kk | seVxVy x y | sneVxVy x y => exact congrArg retire (skipIf_withDraw s r _)
  | orVxVy x y | andVxVy x y | xorVxVy x y => exact congrArg retire (logicFlag_withDraw (s.setV x _) r)
  | drw x y n => exact execDrw_withDraw s r x y n
  | skp x | sknp x => exact (congrArg _ (skipOnKey_withDraw s r _ _)).trans (conclude_withDraw s r _ _)
  | ldVxK x => exact execLdVxK_withDraw s r x
  | ldBcdVx x => exact execLdBcdVx_withDraw s r x
  | ldIVx x => exact execLdIVx_withDraw s r x
  | ldVxI x => exact execLdVxI_withDraw s r x
  | cls | sys | jp | ldVxKk | addVxKk | ldVxVy | addVxVy | subVxVy | shrVxVy | subnVxVy | shlVxVy | ldINnn | jpV0
  | ldVxDt | ldDtVx | ldStVx | addIVx | ldFVx | raw => rfl

/-! ### The step with another draw -/

theorem step_of_halted (hh : s.halted = true) : step s = .next s := by
  obtain ⟨-, hs⟩ | ⟨hrun, -⟩ | ⟨hrun, -⟩ := step_cases s
  · exact hs
  all_goals exact absurd (hh.symm.trans hrun) (by decide)

theorem step_of_not_fetchable (hh : s.halted = false) (hf : s.fetchable = false) :
    step s = .next (s.takeFault (.pcInvalid s.pc) s.pc 0) := by
  obtain ⟨hhalt, -⟩ | ⟨-, -, hs⟩ | ⟨-, hfetch, -⟩ := step_cases s
  · exact absurd (hh.symm.trans hhalt) (by decide)
  · exact hs
  · exact absurd (hf.symm.trans hfetch) (by decide)

/-- A step that does not execute RAND carries the draw over. -/
theorem step_withDraw (h : s.Runs → ∀ x kk, s.nextInstr ≠ .rand x kk) :
    step (s.withDraw r) = mapNext (State.withDraw · r) (step s) := by
  obtain ⟨hh, hs⟩ | ⟨hh, hf, hs⟩ | ⟨hh, hf, -⟩ := step_cases s
  · rw [hs]
    exact step_of_halted (s.withDraw r) hh
  · rw [hs]
    exact step_of_not_fetchable (s.withDraw r) hh hf
  · have hr : s.Runs := ⟨hh, (fetchable_iff s).mp hf⟩
    calc step (s.withDraw r)
      _ = exec s.nextInstr (s.advance.withDraw r) := step_of_runs (s.withDraw r) hr
      _ = mapNext (State.withDraw · r) (exec s.nextInstr s.advance) := exec_withDraw s.advance r _ (h hr)
      _ = mapNext (State.withDraw · r) (step s) := by rw [step_of_runs s hr]

/-! ### Ticks -/

/-- Ticks change the timers alone. -/
theorem repeat_tick_frame (n : Nat) :
    Nat.repeat tick n s = { s with dt := (Nat.repeat tick n s).dt, st := (Nat.repeat tick n s).st } := by
  induction n with
  | zero => rfl
  | succ n ih => exact congrArg tick ih

end Sys2Proof.Machine

open Sys2Proof Sys2Proof.Machine

/-- Settles O13: an instruction other than RAND carries the draw over, and ticks change the timers alone. -/
theorem onlyRandReadsTheDraw : Obligations.OnlyRandReadsTheDraw :=
  ⟨step_withDraw, fun s n => congrArg step (repeat_tick_frame s n)⟩

/-- Settles O6: a step of a machine that runs is the execution of its next instruction. -/
theorem stepExecutesTheDecodedWord : Obligations.StepExecutesTheDecodedWord := by
  rintro s hr _ _ rfl rfl
  have hs : step s = exec (decode s.fetchWord) s.advance := step_of_runs s hr
  exact ⟨hs, fun hraw => hs.trans (congrArg (exec · s.advance) (decode_of_isRawWord hraw))⟩
end

section
/-! PROOFS. The timers' tick (R129) and the snapshot of the display (R132). -/

namespace Sys2Proof.Machine

theorem tickTimer_toNat (t : Byte) : (tickTimer t).toNat = t.toNat - 1 := by
  unfold tickTimer
  split
  · bv_omega
  · omega

/-! ### Tables in row-major order -/

section Table

variable {α : Type} (f : Nat → Nat → α)

/-- `h` rows of `w` entries in row-major order; `f y x` is the entry at row `y` and column `x`. -/
def rowMajor (w h : Nat) : List α := (List.range h).flatMap fun y => (List.range w).map (f y)

theorem rowMajor_succ (w h : Nat) : rowMajor f w (h + 1) = rowMajor f w h ++ (List.range w).map (f h) := by
  simp [rowMajor, List.range_succ]

theorem length_rowMajor (w h : Nat) : (rowMajor f w h).length = h * w := by
  simp [rowMajor]

/-- By induction on the rows: an entry stands in the rows before the last one or in the last row. -/
theorem getElem?_rowMajor {w h x y : Nat} (hx : x < w) (hy : y < h) : (rowMajor f w h)[y * w + x]? = some (f y x) := by
  induction h with
  | zero => omega
  | succ h ih =>
    rw [rowMajor_succ]
    obtain hlt | rfl : y < h ∨ y = h := by omega
    · have hrows : (y + 1) * w ≤ h * w := Nat.mul_le_mul_right w hlt
      rw [Nat.succ_mul] at hrows
      rw [List.getElem?_append_left (by rw [length_rowMajor]; omega), ih hlt]
    · rw [List.getElem?_append_right (by rw [length_rowMajor]; omega), length_rowMajor, Nat.add_sub_cancel_left]
      simp [hx]

end Table

theorem readFb_eq_rowMajor (s : State) : readFb s = rowMajor (fun y x => pixel s.fb x y) displayW displayH := rfl

end Sys2Proof.Machine

open Sys2Proof Sys2Proof.Machine

/-- Settles O48: each timer by what a tick does to one timer; the rest of the state is the record `tick` updates. -/
theorem tickDecrementsTowardZero : Obligations.TickDecrementsTowardZero :=
  fun s => ⟨tickTimer_toNat s.dt, tickTimer_toNat s.st, rfl⟩

/-- Settles O52: the snapshot is the row-major table of the pixels, and it reads no state but the framebuffer. -/
theorem snapshotIsRowMajor : Obligations.SnapshotIsRowMajor := by
  refine fun s => ⟨?_, fun x y hx hy => ?_, rfl, fun a b => ?_⟩
  · rw [readFb_eq_rowMajor]
    exact length_rowMajor _ displayW displayH
  · rw [readFb_eq_rowMajor]
    exact getElem?_rowMajor _ hx hy
  · simp only [readFb_eq_rowMajor, pokeByte_fb]
end

section
/-! PROOFS. Which equation executing an instruction meets where the model branches: in bounds or not, room on the stack
or not, a key named or not. -/

namespace Sys2Proof.Machine

variable (s : State)

/-! ### The stack (R86, R87) -/

theorem exec_call_of_room (nnn : Addr) (h : s.sp.toNat < 16) :
    exec (.call nnn) s =
      retire { s with stack := s.stack.set s.sp.toNat s.pc, sp := s.sp + 1, pc := zextAddr nnn } :=
  dif_pos h

theorem exec_call_of_full (nnn : Addr) (h : s.sp.toNat = 16) :
    exec (.call nnn) s = raiseFault (.call nnn) s (.stackOverflow s.sp) := by
  rw [exec, execCall, dif_neg (by omega), if_pos h]

theorem exec_call_of_above (nnn : Addr) (h : 16 < s.sp.toNat) :
    exec (.call nnn) s = .fault (.noSuchStackSlot s.sp) := by
  rw [exec, execCall, dif_neg (by omega), if_neg (by omega)]

theorem exec_ret_of_filled (k : Fin 16) (h : s.sp.toNat = k.val + 1) :
    exec .ret s = retire { s with sp := s.sp - 1, pc := s.stackSlot k } := by
  have hk : (⟨s.sp.toNat - 1, by omega⟩ : Fin 16) = k := Fin.ext (by simp [h])
  rw [exec, execRet, if_neg (by omega), dif_pos (by omega), hk]
  rfl

theorem exec_ret_of_empty (h : s.sp.toNat = 0) : exec .ret s = raiseFault .ret s (.stackUnderflow s.sp) :=
  if_pos h

theorem exec_ret_of_above (h : 16 < s.sp.toNat) : exec .ret s = .fault (.noSuchStackSlot s.sp) := by
  rw [exec, execRet, if_neg (by omega), dif_neg (by omega)]

/-! ### Accesses through I (R34, R39, R123) -/

theorem indexAddr_zero : s.indexAddr 0 = s.i.toNat := rfl

theorem exec_drw_inside (x y : Reg) (n : Fin 16) (h : n.val = 0 ∨ s.i.toNat + n.val ≤ memSize)
    {drawn : Framebuffer × Bool}
    (hd : drawn = drawRows (s.getV x).toNat (s.getV y).toNat (s.readBytes s.i.toNat n.val) (s.fb, false)) :
    exec (.drw x y n) s = retire ({ s with fb := drawn.1 }.setV vF (flagByte drawn.2)) := by
  subst hd
  rw [exec, execDrw, indexAddr_zero, loadBytes_inside s _ _ h]
  rfl

theorem exec_drw_outside (x y : Reg) (n : Fin 16) (hn : n.val ≠ 0) (h : memSize < s.i.toNat + n.val) :
    exec (.drw x y n) s = raiseFault (.drw x y n) s (.memOutOfBounds (max s.i.toNat memSize)) := by
  rw [exec, execDrw, indexAddr_zero, loadBytes_outside s _ _ hn h]
  rfl

theorem exec_ldBcdVx_inside (x : Reg) (h : s.i.toNat + 3 ≤ memSize) :
    exec (.ldBcdVx x) s = retire (s.pokeBytes s.i.toNat (bcdDigits (s.getV x))) := by
  rw [exec, execLdBcdVx, indexAddr_zero, storeBytes_inside s _ _ (.inr h)]
  rfl

theorem exec_ldBcdVx_outside (x : Reg) (h : memSize < s.i.toNat + 3) :
    exec (.ldBcdVx x) s = raiseFault (.ldBcdVx x) s (.memOutOfBounds (max s.i.toNat memSize)) := by
  rw [exec, execLdBcdVx, indexAddr_zero, storeBytes_outside s _ (bcdDigits _) (List.cons_ne_nil _ _) h]
  rfl

theorem exec_ldIVx_inside (x : Reg) (h : s.i.toNat + (x.val + 1) ≤ memSize) :
    exec (.ldIVx x) s = retire ((s.pokeBytes s.i.toNat (s.getVs x)).stepIndex x) := by
  rw [exec, execLdIVx, indexAddr_zero, storeBytes_inside s _ _ (.inr (by rw [getVs_length]; exact h))]
  rfl

theorem exec_ldIVx_outside (x : Reg) (h : memSize < s.i.toNat + (x.val + 1)) :
    exec (.ldIVx x) s = raiseFault (.ldIVx x) s (.memOutOfBounds (max s.i.toNat memSize)) := by
  have hne : s.getVs x ≠ [] := List.ne_nil_of_length_pos (by rw [getVs_length]; omega)
  rw [exec, execLdIVx, indexAddr_zero, storeBytes_outside s _ _ hne (by rw [getVs_length]; exact h)]
  rfl

theorem exec_ldVxI_inside (x : Reg) (h : s.i.toNat + (x.val + 1) ≤ memSize) :
    exec (.ldVxI x) s = retire ((s.setVs 0 (s.readBytes s.i.toNat (x.val + 1))).stepIndex x) := by
  rw [exec, execLdVxI, indexAddr_zero, loadBytes_inside s _ _ (.inr h)]
  rfl

theorem exec_ldVxI_outside (x : Reg) (h : memSize < s.i.toNat + (x.val + 1)) :
    exec (.ldVxI x) s = raiseFault (.ldVxI x) s (.memOutOfBounds (max s.i.toNat memSize)) := by
  rw [exec, execLdVxI, indexAddr_zero, loadBytes_outside s _ (x.val + 1) (Nat.succ_ne_zero _) h]
  rfl

/-! ### The keypad (R117, R118, R119) -/

theorem exec_skp_of_key (x : Reg) (h : (s.getV x).toNat ≤ 15) :
    exec (.skp x) s = retire (s.skipIf (s.keys.getLsbD (s.getV x).toNat)) := by
  rw [exec, execSkp, State.skipOnKey, if_neg (by omega), beq_true]
  rfl

theorem exec_sknp_of_key (x : Reg) (h : (s.getV x).toNat ≤ 15) :
    exec (.sknp x) s = retire (s.skipIf (!s.keys.getLsbD (s.getV x).toNat)) := by
  rw [exec, execSknp, State.skipOnKey, if_neg (by omega), beq_false]
  rfl

theorem exec_skp_of_no_key (x : Reg) (h : 15 < (s.getV x).toNat) :
    exec (.skp x) s = raiseFault (.skp x) s (.keyIndexOutOfRange (s.getV x)) := by
  rw [exec, execSkp, State.skipOnKey, if_pos h]
  rfl

theorem exec_sknp_of_no_key (x : Reg) (h : 15 < (s.getV x).toNat) :
    exec (.sknp x) s = raiseFault (.sknp x) s (.keyIndexOutOfRange (s.getV x)) := by
  rw [exec, execSknp, State.skipOnKey, if_pos h]
  rfl

theorem exec_ldVxK_of_pressed (x : Reg) {k : Nat} (h : lowestKey s.keys = some k) :
    exec (.ldVxK x) s = retire (s.setV x (BitVec.ofNat 8 k)) := by
  rw [exec, execLdVxK, h]

theorem exec_ldVxK_of_none (x : Reg) (h : lowestKey s.keys = none) :
    exec (.ldVxK x) s = .next (s.unfetch.withStatus statusWaitKey) := by
  rw [exec, execLdVxK, h]

/-! ### Every cause of R120 raises -/

theorem exec_of_raisesAt {i : Instr} {e : Raise} (h : RaisesAt s i e) : exec i s = raiseFault i s e := by
  cases e with
  | unimplemented => obtain ⟨nnn, rfl⟩ | ⟨w, rfl⟩ := h <;> rfl
  | pcInvalid pc => exact h.elim
  | stackOverflow sp =>
    obtain ⟨rfl, hfull, nnn, rfl⟩ := h
    exact exec_call_of_full s nnn hfull
  | stackUnderflow sp =>
    obtain ⟨rfl, hempty, rfl⟩ := h
    exact exec_ret_of_empty s hempty
  | memOutOfBounds a =>
    obtain ⟨rfl, hne, hout⟩ := h
    cases i with
    | drw x y n => exact exec_drw_outside s x y n hne hout
    | ldBcdVx x => exact exec_ldBcdVx_outside s x hout
    | ldIVx x => exact exec_ldIVx_outside s x hout
    | ldVxI x => exact exec_ldVxI_outside s x hout
    | _ => exact absurd rfl hne
  | keyIndexOutOfRange k =>
    obtain ⟨habove, x, rfl, rfl | rfl⟩ := h
    · exact exec_skp_of_no_key s x habove
    · exact exec_sknp_of_no_key s x habove

/-! ### Only the stop answers no next state -/

theorem exec_answers (i : Instr) (h : (∃ nnn, i = .call nnn) ∨ i = .ret → s.sp.toNat ≤ 16) :
    ∃ t, exec i s = .next t := by
  have hend := exec_ends s i
  generalize exec i s = o at hend ⊢
  cases hend with
  | retires t => exact ⟨_, rfl⟩
  | waits => exact ⟨_, rfl⟩
  | raises e => exact ⟨_, rfl⟩
  | stops above instr => exact absurd (h instr) (by omega)

end Sys2Proof.Machine

open Sys2Proof Sys2Proof.Machine

/-- Settles O16: of the ways an instruction can end, only the stop answers no next state. -/
theorem onlyCallAndRetAboveCapacityStop : Obligations.OnlyCallAndRetAboveCapacityStop :=
  fun s => ⟨fun h nnn => exec_call_of_above s nnn h, exec_ret_of_above s, exec_answers s⟩
end

section
/-! PROOFS. What an instruction that retires writes, said once by the piece of state it writes (R17, R22, R23, R25, R26,
R34). -/

namespace Sys2Proof.Machine

variable (s : State)

/-- `Effect s i t`: `t` differs from `s` in what `i` may write, as an instruction that retires leaves it. One
constructor per piece of state. -/
inductive Effect (i : Instr) : State → Prop where
  /-- V registers and I, and the supply of draws (RAND). -/
  | registers (v : Vector Byte 16) (w : Word) (draw : Byte) (drawCount : Nat)
      (regs : ∀ r : Reg, v[r] ≠ s.getV r → mayWriteReg s.cfg i r) (index : w ≠ s.i → mayWriteIndex s.cfg i) :
      Effect i { s with v := v, i := w, draw := draw, drawCount := drawCount }
  /-- PC, by a jump to an address of 12 bits plus a byte, a skip taken or a skip not taken. -/
  | jump (pc : Word) (bound : pc = s.pc ∨ pc = s.pc + 2 ∨ pc.toNat ≤ 0x10FE) : Effect i { s with pc := pc }
  /-- The pushed return address, SP and PC. -/
  | call (nnn : Addr) (instr : i = .call nnn) (room : s.sp.toNat < 16) :
      Effect i { s with stack := s.stack.set s.sp.toNat s.pc, sp := s.sp + 1, pc := zextAddr nnn }
  /-- SP and PC, the slot keeping its value. -/
  | ret (instr : i = .ret) (k : Fin 16) (filled : s.sp.toNat = k.val + 1) :
      Effect i { s with sp := s.sp - 1, pc := s.stackSlot k }
  /-- The pixels, and VF by DRW. -/
  | display (fb : Framebuffer) (v : Vector Byte 16) (instr : i = .cls ∨ ∃ x y n, i = .drw x y n)
      (regs : ∀ r : Reg, v[r] ≠ s.getV r → mayWriteReg s.cfg i r) : Effect i { s with fb := fb, v := v }
  /-- DT. -/
  | delayTimer (x : Reg) (instr : i = .ldDtVx x) (b : Byte) : Effect i { s with dt := b }
  /-- ST. -/
  | soundTimer (x : Reg) (instr : i = .ldStVx x) (b : Byte) : Effect i { s with st := b }
  /-- A run of bytes inside memory, and I by Fx55. -/
  | store (x : Reg) (instr : i = .ldBcdVx x ∨ i = .ldIVx x) (a : Nat) (bs : List Byte)
      (inside : a + bs.length ≤ memSize) (w : Word) (index : w ≠ s.i → mayWriteIndex s.cfg i) :
      Effect i { s with mem := (s.pokeBytes a bs).mem, i := w }

/-! ### The effect of each shared operation -/

variable {s} {i : Instr}

theorem Effect.of_registers {t : State}
    (frame : t = { s with v := t.v, i := t.i, draw := t.draw, drawCount := t.drawCount })
    (regs : ∀ r, t.getV r ≠ s.getV r → mayWriteReg s.cfg i r) (index : t.i ≠ s.i → mayWriteIndex s.cfg i) :
    Effect s i t := by
  rw [frame]
  exact .registers t.v t.i t.draw t.drawCount regs index

theorem getV_setV_ne {x r : Reg} {b : Byte} (h : (s.setV x b).getV r ≠ s.getV r) : x = r := by
  by_contra hne
  exact h (by rw [getV_setV, if_neg hne])

/-- A write to Vx and nothing else. -/
theorem effect_setV {x : Reg} (b : Byte) (hx : mayWriteReg s.cfg i x) : Effect s i (s.setV x b) := by
  refine .of_registers rfl (fun r hr => ?_) (absurd rfl)
  obtain rfl := getV_setV_ne hr
  exact hx

theorem effect_setResultAndFlag {x : Reg} (b : Byte) (f : Bool) (hx : mayWriteReg s.cfg i x)
    (hF : mayWriteReg s.cfg i vF) : Effect s i (s.setResultAndFlag x b f) := by
  refine .of_registers rfl (fun r hr => ?_) (absurd rfl)
  by_cases hr' : (s.setV x b).getV r = s.getV r
  · obtain rfl := getV_setV_ne (hr'.symm ▸ hr)
    exact hF
  · obtain rfl := getV_setV_ne hr'
    exact hx

theorem effect_logic {x : Reg} (b : Byte) (hx : mayWriteReg s.cfg i x)
    (hF : s.cfg.logicResetsVf = true → mayWriteReg s.cfg i vF) : Effect s i (s.setV x b).logicFlag := by
  unfold State.logicFlag
  split
  · exact effect_setResultAndFlag b false hx (hF ‹_›)
  · exact effect_setV b hx

theorem effect_skipIf (c : Bool) : Effect s i (s.skipIf c) := by
  cases c
  · exact .jump s.pc (.inl rfl)
  · exact .jump (s.pc + 2) (.inr (.inl rfl))

theorem effect_setIndex (w : Word) (h : mayWriteIndex s.cfg i) : Effect s i (s.setIndex w) :=
  .of_registers rfl (fun _ => absurd rfl) fun _ => h

/-- `I` moves only with LOADSTORE_INCREMENTS_I. -/
theorem stepIndex_i_ne {x : Reg} (h : (s.stepIndex x).i ≠ s.i) : s.cfg.loadstoreIncrementsI = true := by
  unfold State.stepIndex at h
  split at h
  · assumption
  · exact absurd rfl h

theorem effect_store {x : Reg} {bs : List Byte} (a : Nat) (hi : i = .ldIVx x) (inside : a + bs.length ≤ memSize) :
    Effect s i ((s.pokeBytes a bs).stepIndex x) := by
  subst hi
  rw [stepIndex_frame, pokeBytes_frame]
  exact .store x (.inr rfl) a bs inside _ (stepIndex_i_ne (s := { s with mem := _ }))

theorem effect_load {x : Reg} {bs : List Byte} (hi : i = .ldVxI x) (hl : bs.length = x.val + 1) :
    Effect s i ((s.setVs 0 bs).stepIndex x) := by
  subst hi
  rw [stepIndex_frame, setVs_frame]
  refine .registers _ _ s.draw s.drawCount (fun r hr => ?_) (stepIndex_i_ne (s := { s with v := _ }))
  by_contra hgt
  have hout : bs.length ≤ r.val := by rw [hl]; exact Nat.succ_le_of_lt (Fin.not_le.mp hgt)
  refine hr ((getV_setVs s 0 bs r).trans ?_)
  rw [if_pos (Nat.zero_le _), Nat.sub_zero, List.getD_eq_default _ _ hout]

/-! ### The effect of each instruction -/

/-- A state that faulted is not the state of a step that ended Ok. -/
theorem lastStatus_of_raiseFault {e : Raise} {t : State} (h : raiseFault i s e = .next t) :
    t.lastStatus ≠ statusOk := by
  cases h
  rw [takeFault_lastStatus]
  split <;> decide

theorem zextAddr_toNat (nnn : Addr) : (zextAddr nnn).toNat = nnn.toNat := BitVec.toNat_setWidth_of_le (by decide)

theorem zextByte_toNat (b : Byte) : (zextByte b).toNat = b.toNat := BitVec.toNat_setWidth_of_le (by decide)

/-- `nnn + V0` fits in 16 bits (R88). -/
theorem jumpV0_toNat (nnn : Addr) (b : Byte) : (zextAddr nnn + zextByte b).toNat = nnn.toNat + b.toNat := by
  have := nnn.isLt
  have := b.isLt
  rw [BitVec.toNat_add, zextAddr_toNat, zextByte_toNat]
  omega

/-- An instruction that retires has the effect of the shared operation it ends with. -/
theorem exec_effect {t : State} (h : exec i s = .next t) (hok : t.lastStatus = statusOk) :
    ∃ u, Effect s i u ∧ t = u.withStatus statusOk := by
  have retired : ∀ u, exec i s = retire u → Effect s i u → ∃ u, Effect s i u ∧ t = u.withStatus statusOk :=
    fun u hu he => ⟨u, he, Host.Outcome.next.inj (h.symm.trans hu)⟩
  have raised : ∀ e, exec i s = raiseFault i s e → ∃ u, Effect s i u ∧ t = u.withStatus statusOk :=
    fun e he => absurd hok (lastStatus_of_raiseFault (he.symm.trans h))
  cases i with
  | cls => exact retired _ rfl (.display _ s.v (.inl rfl) fun _ => absurd rfl)
  | ret =>
    obtain hsp | hsp := Nat.lt_or_ge 16 s.sp.toNat
    · rw [exec_ret_of_above s hsp] at h; cases h
    · cases hk : s.sp.toNat with
      | zero => exact raised _ (exec_ret_of_empty s hk)
      | succ k => exact retired _ (exec_ret_of_filled s ⟨k, by omega⟩ hk) (.ret rfl _ hk)
  | call nnn =>
    obtain hsp | hsp | hsp := Nat.lt_trichotomy s.sp.toNat 16
    · exact retired _ (exec_call_of_room s nnn hsp) (.call nnn rfl hsp)
    · exact raised _ (exec_call_of_full s nnn hsp)
    · rw [exec_call_of_above s nnn hsp] at h; cases h
  | sys nnn => exact raised _ rfl
  | raw w => exact raised _ rfl
  | jp nnn => exact retired _ rfl (.jump _ (.inr (.inr (by rw [zextAddr_toNat]; omega))))
  | jpV0 nnn => exact retired _ rfl (.jump _ (.inr (.inr (by rw [jumpV0_toNat]; omega))))
  | seVxKk | sneVxKk | seVxVy | sneVxVy => exact retired _ rfl (effect_skipIf _)
  | ldVxKk | addVxKk | ldVxVy | ldVxDt => exact retired _ rfl (effect_setV _ rfl)
  | orVxVy | andVxVy | xorVxVy => exact retired _ rfl (effect_logic _ (.inl rfl) fun hc => .inr ⟨hc, rfl⟩)
  | addVxVy | subVxVy | shrVxVy | subnVxVy | shlVxVy =>
    exact retired _ rfl (effect_setResultAndFlag _ _ (.inl rfl) (.inr rfl))
  | ldINnn | addIVx | ldFVx => exact retired _ rfl (effect_setIndex _ trivial)
  | rand x kk =>
    exact retired _ rfl (.of_registers rfl (fun r hr => (getV_setV_ne hr).symm) (absurd rfl))
  | drw x y n =>
    by_cases hin : n.val = 0 ∨ s.i.toNat + n.val ≤ memSize
    · exact retired _ (exec_drw_inside s x y n hin rfl)
        (.display _ _ (.inr ⟨x, y, n, rfl⟩) fun r hr => (getV_setV_ne hr).symm)
    · exact raised _ (exec_drw_outside s x y n (by omega) (by omega))
  | skp x =>
    obtain hk | hk := Nat.lt_or_ge 15 (s.getV x).toNat
    · exact raised _ (exec_skp_of_no_key s x hk)
    · exact retired _ (exec_skp_of_key s x hk) (effect_skipIf _)
  | sknp x =>
    obtain hk | hk := Nat.lt_or_ge 15 (s.getV x).toNat
    · exact raised _ (exec_sknp_of_no_key s x hk)
    · exact retired _ (exec_sknp_of_key s x hk) (effect_skipIf _)
  | ldVxK x =>
    cases hk : lowestKey s.keys with
    | some k => exact retired _ (exec_ldVxK_of_pressed s x hk) (effect_setV _ rfl)
    | none =>
      rw [exec_ldVxK_of_none s x hk] at h
      cases h
      exact absurd hok (by rw [withStatus_lastStatus]; decide)
  | ldDtVx x => exact retired _ rfl (.delayTimer x rfl _)
  | ldStVx x => exact retired _ rfl (.soundTimer x rfl _)
  | ldBcdVx x =>
    obtain hb | hb := Nat.lt_or_ge memSize (s.i.toNat + 3)
    · exact raised _ (exec_ldBcdVx_outside s x hb)
    · refine retired _ (exec_ldBcdVx_inside s x hb) ?_
      rw [pokeBytes_frame]
      exact .store x (.inl rfl) _ (bcdDigits _) hb s.i (absurd rfl)
  | ldIVx x =>
    obtain hb | hb := Nat.lt_or_ge memSize (s.i.toNat + (x.val + 1))
    · exact raised _ (exec_ldIVx_outside s x hb)
    · exact retired _ (exec_ldIVx_inside s x hb) (effect_store _ rfl (by rw [getVs_length]; exact hb))
  | ldVxI x =>
    obtain hb | hb := Nat.lt_or_ge memSize (s.i.toNat + (x.val + 1))
    · exact raised _ (exec_ldVxI_outside s x hb)
    · exact retired _ (exec_ldVxI_inside s x hb) (effect_load rfl (readBytes_length s _ _))

end Sys2Proof.Machine
end

section
/-! PROOFS. What a step can do (R71, R73, R77, R79, R83): it faults for a cause of R120, it waits, or it retires with
the effect of its instruction. -/

namespace Sys2Proof.Machine

variable (s : State)

/-! ### A fault and its record -/

theorem takeFault_lastStatus_eq_unimplemented_iff (e : Raise) (p w : Word) :
    (s.takeFault e p w).lastStatus = statusUnimplemented ↔ e = .unimplemented := by
  cases e <;> simp [Raise.fatal]

theorem faulted_takeFault (e : Raise) (p w : Word) : Faulted e p w s (s.takeFault e p w) := by
  unfold Faulted
  cases e <;> simp [State.takeFault, Raise.fatal]

theorem takeFault_takeFault (e : Raise) (p w : Word) : (s.takeFault e p w).takeFault e p w = s.takeFault e p w := by
  simp only [State.takeFault, Bool.or_assoc, Bool.or_self]

theorem stepResult_takeFault (e : Raise) (p w : Word) :
    (s.takeFault e p w).stepResult = if e.fatal then .fatalFault e.code e.info else .unimplemented p w := by
  cases e <;> rfl

theorem faulted_raiseFault (i : Instr) (e : Raise) :
    ∃ t, raiseFault i s e = .next t ∧ Faulted e (s.pc - 2) (encode i) { s with pc := s.pc - 2 } t :=
  ⟨_, rfl, faulted_takeFault s.unfetch e _ _⟩

/-! ### The causes of R120 raise -/

theorem State.Runs.recordedWord {s : State} (h : s.Runs) : s.recordedWord = s.fetchWord :=
  if_pos ((fetchable_iff s).mpr h.2)

/-- In a machine that runs, the causes of a step are those of its instruction. -/
theorem faultCause_iff_raisesAt {s : State} (h : s.Runs) (e : Raise) :
    FaultCause s e ↔ RaisesAt s.advance s.nextInstr e := by
  cases e with
  | pcInvalid pc => exact ⟨fun ⟨hpc, hbad⟩ => hbad (hpc ▸ h.2), False.elim⟩
  | _ => exact and_iff_right h

theorem raiseFault_nextInstr (e : Raise) :
    raiseFault s.nextInstr s.advance e = .next (s.takeFault e s.pc s.fetchWord) := by
  rw [raiseFault, unfetch_advance, pc0_advance, State.nextInstr, encode_decode]

theorem step_of_faultCause (hh : s.halted = false) {e : Raise} (he : FaultCause s e) :
    step s = .next (s.takeFault e s.pc s.recordedWord) := by
  by_cases hf : s.fetchable = true
  · have hr : s.Runs := ⟨hh, (fetchable_iff s).mp hf⟩
    rw [step_of_runs s hr, exec_of_raisesAt _ ((faultCause_iff_raisesAt hr e).mp he), raiseFault_nextInstr,
      hr.recordedWord]
  · cases e with
    | pcInvalid pc =>
      obtain ⟨rfl, -⟩ := he
      rw [step_of_not_fetchable s hh (Bool.eq_false_iff.mpr hf), State.recordedWord, if_neg hf]
    | _ => exact absurd ((fetchable_iff s).mpr he.1.2) hf

/-- A state that holds the record of its next step already. -/
theorem step_of_recorded (he : FaultCause s .unimplemented)
    (hs : s.takeFault .unimplemented s.pc s.recordedWord = s) : step s = .next s := by
  rw [step_of_faultCause s he.1.1 he, hs]

/-! ### The inversion of a step -/

/-- What a step of a machine that is not halted leaves. -/
inductive StepEnd : State → Prop where
  | retires (runs : s.Runs) (t : State) (effect : Effect s.advance s.nextInstr t) : StepEnd (t.withStatus statusOk)
  | waits (x : Reg) (instr : s.nextInstr = .ldVxK x) (noKey : s.keys = 0) : StepEnd (s.withStatus statusWaitKey)
  | faults (e : Raise) (cause : FaultCause s e) : StepEnd (s.takeFault e s.pc s.recordedWord)

theorem step_ends {t : State} (hh : s.halted = false) (h : step s = .next t) : StepEnd s t := by
  by_cases hf : s.fetchable = true
  · have hr : s.Runs := ⟨hh, (fetchable_iff s).mp hf⟩
    rw [step_of_runs s hr] at h
    have hend := exec_ends s.advance s.nextInstr
    generalize ho : exec s.nextInstr s.advance = o at hend
    cases hend with
    | retires u =>
      obtain ⟨v, hv, rfl⟩ := exec_effect h (by cases ho.symm.trans h; rfl)
      exact .retires hr v hv
    | waits x instr noKey =>
      cases ho.symm.trans h
      rw [unfetch_advance]
      exact .waits x instr noKey
    | raises e cause =>
      rw [ho, raiseFault_nextInstr, ← hr.recordedWord] at h
      cases h
      exact .faults e ((faultCause_iff_raisesAt hr e).mpr cause)
    | stops => cases ho.symm.trans h
  · have he : FaultCause s (.pcInvalid s.pc) := ⟨rfl, mt (fetchable_iff s).mpr hf⟩
    rw [step_of_faultCause s hh he] at h
    cases h
    exact .faults _ he

/-- The fault record and the halt latch through an instruction that retires. -/
theorem Effect.sameFaultRecord {s : State} {i : Instr} {t : State} (h : Effect s i t) : SameFaultRecord s t := by
  cases h <;> exact SameFaultRecord.refl s

/-- The host's step with a draw of its own: the supply of draws is put back after it. -/
theorem stepWith_eq (r : Byte) :
    stepWith r s = mapNext (fun t => { t with draw := s.draw, drawCount := s.drawCount }) (step (s.withDraw r)) := by
  rw [stepWith, ← State.withDraw]
  cases step (s.withDraw r) <;> rfl

/-! ### Parked states -/

/-- The word of a parked state is a jump to its own address, which 12 bits hold. -/
theorem State.Parked.nextInstr {s : State} (h : s.Parked) :
    ∃ nnn : Addr, s.nextInstr = .jp nnn ∧ zextAddr nnn = s.pc := by
  obtain ⟨⟨-, -, -, hpc⟩, hw⟩ := h
  have hz : zextAddr (s.pc.setWidth 12) = s.pc := by
    apply BitVec.eq_of_toNat_eq
    rw [zextAddr_toNat, BitVec.toNat_setWidth]
    omega
  have henc : s.fetchWord = encode (.jp (s.pc.setWidth 12)) := by
    rw [hw, encode, formatA_eq_or]
    exact congrArg (0x1000 ||| ·) hz.symm
  exact ⟨_, by rw [State.nextInstr, henc, decode_encode rfl], hz⟩

end Sys2Proof.Machine

open Sys2Proof Sys2Proof.Machine

/-- Settles O9: a step that ends with a fault has one of the causes, and every cause raises. -/
theorem faultsArePreciseAndCaused : Obligations.FaultsArePreciseAndCaused := by
  refine ⟨fun s t hh hs hstatus => ?_, fun s e hh he => ⟨_, step_of_faultCause s hh he, faulted_takeFault s e _ _⟩⟩
  cases step_ends s hh hs with
  | retires | waits => exact absurd hstatus (by rw [withStatus_lastStatus]; decide)
  | faults e cause => exact ⟨e, cause, faulted_takeFault s e _ _⟩

/-- Settles O10: neither a retired nor a waiting step writes the record, and a fault ends with neither status. -/
theorem cleanStepKeepsFaultRecord : Obligations.CleanStepKeepsFaultRecord := by
  intro s t hh hs hstatus
  cases step_ends s hh hs with
  | retires _ u effect =>
    exact ⟨effect.sameFaultRecord, fun hwait => absurd hwait (by rw [withStatus_lastStatus]; decide)⟩
  | waits x instr noKey => exact ⟨SameFaultRecord.refl s, fun _ => ⟨noKey, ⟨x, instr⟩, rfl⟩⟩
  | faults e =>
    rw [takeFault_lastStatus] at hstatus
    exact absurd hstatus (by split <;> decide)

/-- Settles O11: only the cause Unimplemented leaves that status; it still holds in the state it leaves, whatever the
keys and the timers, and recording it twice is recording it once. -/
theorem unimplementedStepRepeats : Obligations.UnimplementedStepRepeats := by
  intro s t hh hs hstatus
  cases step_ends s hh hs with
  | retires | waits => exact absurd hstatus (by rw [withStatus_lastStatus]; decide)
  | faults e cause =>
    obtain rfl := (takeFault_lastStatus_eq_unimplemented_iff s e _ _).mp hstatus
    have ht : FaultCause (s.takeFault .unimplemented s.pc s.recordedWord) .unimplemented :=
      ⟨⟨(Bool.or_false _).trans hh, cause.1.2⟩, cause.2⟩
    have hagain := takeFault_takeFault s .unimplemented s.pc s.recordedWord
    exact ⟨step_of_recorded _ ht hagain, by rw [stepResult_takeFault, cause.1.recordedWord]; rfl,
      fun k => step_of_recorded (setKeys k _) ht (congrArg (setKeys k) hagain),
      step_of_recorded (tick _) ht (congrArg tick hagain)⟩

/-- Settles O12: the parked word jumps to where it stands. -/
theorem parkedStateIsFixed : Obligations.ParkedStateIsFixed := by
  intro s hp
  obtain ⟨nnn, hi, hz⟩ := hp.nextInstr
  refine ⟨?_, hp⟩
  rw [step_of_runs s hp.1, hi]
  show Host.Outcome.next { s with pc := zextAddr nnn, lastStatus := statusOk } = _
  rw [hz]

/-- Settles O7: a PC that no fetch accepts is a cause of PcInvalid. -/
theorem invalidPcFaultsAtFetch : Obligations.InvalidPcFaultsAtFetch := by
  intro s hh hpc
  have hf : s.fetchable = false := Bool.eq_false_iff.mpr fun h => by
    have := (fetchable_iff s).mp h
    omega
  exact ⟨_, step_of_not_fetchable s hh hf, faulted_takeFault s _ _ _, stepResult_takeFault s _ _ _⟩

/-- Settles O8: a halted step answers its state, and the invariant ties the halt latch to the status Fault. -/
theorem haltedStepChangesNothing : Obligations.HaltedStepChangesNothing := by
  intro s hh
  refine ⟨step_of_halted s hh, fun r => ?_, fun hinv => ?_⟩
  · rw [stepWith_eq, step_of_halted (s.withDraw r) hh]
    rfl
  · rw [State.stepResult, hinv.halted_iff.mp hh]
    rfl
end

section
/-! PROOFS. Who writes which piece of state (R17, R22, R23, R25, R26, R27, R34): read off the effects. -/

namespace Sys2Proof.Machine

variable {s t : State} {i : Instr}

/-- The slots of a stack onto which a CALL pushed. -/
theorem getElem_set_slot (st : Vector Word 16) (n : Nat) (hn : n < 16) (w : Word) (k : Fin 16) :
    (st.set n w)[k] = if k.val = n then w else st[k] := by
  rw [Fin.getElem_fin, Vector.getElem_set]
  simp only [eq_comm, Fin.getElem_fin]

namespace Effect

theorem getV_ne (h : Effect s i t) {r : Reg} (hne : t.getV r ≠ s.getV r) : mayWriteReg s.cfg i r := by
  cases h with
  | registers v w draw drawCount regs => exact regs r hne
  | display fb v instr regs => exact regs r hne
  | _ => exact absurd rfl hne

theorem index_ne (h : Effect s i t) (hne : t.i ≠ s.i) : mayWriteIndex s.cfg i := by
  cases h with
  | registers v w draw drawCount regs index => exact index hne
  | store x instr a bs inside w index => exact index hne
  | _ => exact absurd rfl hne

theorem sp_ne (h : Effect s i t) (hne : t.sp ≠ s.sp) : (∃ nnn, i = .call nnn) ∨ i = .ret := by
  cases h with
  | call nnn instr => exact .inl ⟨nnn, instr⟩
  | ret instr => exact .inr instr
  | _ => exact absurd rfl hne

theorem slot_ne (h : Effect s i t) {k : Fin 16} (hne : t.stackSlot k ≠ s.stackSlot k) :
    k.val = s.sp.toNat ∧ ∃ nnn, i = .call nnn := by
  cases h with
  | call nnn instr room =>
    refine ⟨by_contra fun hk => hne ?_, nnn, instr⟩
    exact (getElem_set_slot s.stack _ room s.pc k).trans (if_neg hk)
  | _ => exact absurd rfl hne

theorem dt_ne (h : Effect s i t) (hne : t.dt ≠ s.dt) : ∃ x, i = .ldDtVx x := by
  cases h with
  | delayTimer x instr => exact ⟨x, instr⟩
  | _ => exact absurd rfl hne

theorem st_ne (h : Effect s i t) (hne : t.st ≠ s.st) : ∃ x, i = .ldStVx x := by
  cases h with
  | soundTimer x instr => exact ⟨x, instr⟩
  | _ => exact absurd rfl hne

theorem fb_ne (h : Effect s i t) (hne : t.fb ≠ s.fb) : i = .cls ∨ ∃ x y n, i = .drw x y n := by
  cases h with
  | display fb v instr => exact instr
  | _ => exact absurd rfl hne

theorem readByte_ne (h : Effect s i t) {a : Nat} (hne : t.readByte a ≠ s.readByte a) :
    ∃ x, i = .ldBcdVx x ∨ i = .ldIVx x := by
  cases h with
  | store x instr => exact ⟨x, instr⟩
  | _ => exact absurd rfl hne

theorem sameKeysAndParameters (h : Effect s i t) : SameKeysAndParameters s t := by
  cases h <;> exact ⟨rfl, rfl⟩

end Effect

/-! ### Keys and parameters through a step -/

theorem StepEnd.sameKeysAndParameters (h : StepEnd s t) : SameKeysAndParameters s t := by
  cases h with
  | retires runs u effect => exact effect.sameKeysAndParameters
  | waits => exact ⟨rfl, rfl⟩
  | faults => exact ⟨rfl, rfl⟩

theorem step_sameKeysAndParameters (h : step s = .next t) : SameKeysAndParameters s t := by
  cases hh : s.halted with
  | true =>
    cases (step_of_halted s hh).symm.trans h
    exact ⟨rfl, rfl⟩
  | false => exact (step_ends s hh h).sameKeysAndParameters

/-! ### Flags (R16, R78) -/

theorem flagByte_eq_zero_or_one (f : Bool) : flagByte f = 0 ∨ flagByte f = 1 := by
  cases f
  · exact .inl rfl
  · exact .inr rfl

/-- An instruction that retires after writing a flag leaves VF 0 or 1. -/
theorem getV_vF_of_flag {u : State} {f : Bool} (h : retire (u.setV vF (flagByte f)) = .next t) :
    t.getV vF = 0 ∨ t.getV vF = 1 := by
  cases h
  rw [getV_withStatus, getV_setV, if_pos rfl]
  exact flagByte_eq_zero_or_one f

end Sys2Proof.Machine

open Sys2Proof Sys2Proof.Machine

/-- Settles O15: a retired step has its instruction's effect, and any other leaves all of this as it was. -/
theorem stateWrittenOnlyByNamedInstructions : Obligations.StateWrittenOnlyByNamedInstructions := by
  intro s t hr hs
  have hkeys := (step_sameKeysAndParameters hs).1
  have hcfg := (step_sameKeysAndParameters hs).2
  cases step_ends s hr.1 hs with
  | retires _ u effect =>
    exact ⟨effect.index_ne, effect.sp_ne, fun _ => effect.slot_ne, effect.dt_ne, effect.st_ne, effect.fb_ne,
      fun _ => effect.readByte_ne, hkeys, hcfg⟩
  | waits | faults =>
    exact ⟨absurd rfl, absurd rfl, fun _ => absurd rfl, absurd rfl, absurd rfl, absurd rfl, fun _ => absurd rfl,
      hkeys, hcfg⟩

/-- Settles O14: the registers by the effect of a retired step; the flag by the write that each of these instructions
ends with, where it does not raise. -/
theorem registersWrittenOnlyByTable : Obligations.RegistersWrittenOnlyByTable := by
  intro s t hr hs
  refine ⟨fun r hne => ?_, fun hok hflag => ?_⟩
  · cases step_ends s hr.1 hs with
    | retires _ u effect => exact effect.getV_ne hne
    | waits | faults => exact absurd rfl hne
  · rw [step_of_runs s hr] at hs
    obtain ⟨x, y, hi | hi | hi | hi | hi | ⟨n, hi⟩⟩ := hflag <;> rw [hi] at hs
    iterate 5 exact getV_vF_of_flag hs
    by_cases hin : n.val = 0 ∨ s.i.toNat + n.val ≤ memSize
    · exact getV_vF_of_flag ((exec_drw_inside s.advance x y n hin rfl).symm.trans hs)
    · rw [exec_drw_outside s.advance x y n (by omega) (by rw [advance_i]; omega)] at hs
      exact absurd hok (lastStatus_of_raiseFault hs)

/-- Settles O53: `set_keys` is one record update, and no step writes the keys. -/
theorem keysStayAsWritten : Obligations.KeysStayAsWritten := by
  refine fun k s t => ⟨rfl, rfl, ?_, fun hs => (step_sameKeysAndParameters hs).1⟩
  rw [readSound, bne_iff_ne, ne_eq, ← BitVec.toNat_inj]
  rfl
end

section
/-! PROOFS. The invariant (R21, R23, R82): at reset, through every step, through every operation of the host. -/

namespace Sys2Proof.Machine

variable {s t : State} {i : Instr}

/-! ### What the effects keep -/

namespace Effect

theorem mem_wf (h : Effect s i t) (hm : Memory.wf s.cfg s.mem = true) : Memory.wf t.cfg t.mem = true := by
  cases h with
  | store x instr a bs inside => exact pokeBytes_wf s a bs hm (.inr inside)
  | _ => exact hm

theorem sp_le (h : Effect s i t) (hsp : s.sp.toNat ≤ stackDepth) : t.sp.toNat ≤ stackDepth := by
  cases h with
  | call nnn instr room =>
    show (s.sp + 1).toNat ≤ 16
    bv_omega
  | ret instr k filled =>
    show (s.sp - 1).toNat ≤ 16
    bv_omega
  | _ => exact hsp

/-- A pushed return address is the PC after a fetch, at most 0x1000. -/
theorem slot_le (h : Effect s i t) (hslot : ∀ k, (s.stackSlot k).toNat ≤ 0x1000) (hpc : s.pc.toNat ≤ 0x1000)
    (k : Fin 16) : (t.stackSlot k).toNat ≤ 0x1000 := by
  cases h with
  | call nnn instr room =>
    have hk := getElem_set_slot s.stack _ room s.pc k
    show ((s.stack.set _ s.pc room)[k]).toNat ≤ 0x1000
    rw [hk]
    split
    · exact hpc
    · exact hslot k
  | _ => exact hslot k

theorem pc_le (h : Effect s i t) (hslot : ∀ k, (s.stackSlot k).toNat ≤ 0x1000) (hpc : s.pc.toNat ≤ 0x1000) :
    t.pc.toNat ≤ 0x10FE := by
  cases h with
  | jump pc bound =>
    show pc.toNat ≤ 0x10FE
    obtain rfl | rfl | hle := bound
    · omega
    · bv_omega
    · exact hle
  | call nnn =>
    show (zextAddr nnn).toNat ≤ 0x10FE
    rw [zextAddr_toNat]
    omega
  | ret instr k => exact (hslot k).trans (by decide)
  | _ => exact hpc.trans (by decide)

end Effect

/-! ### The invariant through each way a step can end -/

/-- The codes of the fatal faults (R120). -/
theorem Raise.code_of_fatal (e : Raise) (h : e.fatal = true) : 2 ≤ e.code.toNat ∧ e.code.toNat ≤ 6 := by
  cases e <;> simp_all [Raise.fatal, Raise.code]

namespace State.Inv

theorem withStatus (h : s.Inv) (hh : s.halted = false) {q : BitVec 2} (hf : q ≠ statusFault)
    (hu : q ≠ statusUnimplemented) :
    (s.withStatus q).Inv where
  cfg_wf := h.cfg_wf
  mem_wf := h.mem_wf
  sp_le := h.sp_le
  slot_le := h.slot_le
  pc_le := h.pc_le
  halted_iff := iff_of_false (Bool.eq_false_iff.mp hh) hf
  fatal_code := h.fatal_code
  unimplemented_code := fun hq => absurd hq hu

/-- Whatever fault is recorded: its status and code agree (R120). -/
theorem takeFault (h : s.Inv) (hh : s.halted = false) (e : Raise) (p w : Word) : (s.takeFault e p w).Inv where
  cfg_wf := h.cfg_wf
  mem_wf := h.mem_wf
  sp_le := h.sp_le
  slot_le := h.slot_le
  pc_le := h.pc_le
  halted_iff := by
    rw [takeFault_halted, takeFault_lastStatus, hh, Bool.false_or]
    cases e.fatal <;> decide
  fatal_code := by
    rw [takeFault_halted, takeFault_faultCode, hh, Bool.false_or]
    exact e.code_of_fatal
  unimplemented_code := fun hq => by
    obtain rfl := (takeFault_lastStatus_eq_unimplemented_iff s e p w).mp hq
    rfl

/-- The pieces of state the invariant does not speak of. -/
theorem unconstrained (h : s.Inv) (dt st : Byte) (keys : BitVec 16) (draw : Byte) (drawCount : Nat) :
    State.Inv { s with dt := dt, st := st, keys := keys, draw := draw, drawCount := drawCount } :=
  ⟨h.cfg_wf, h.mem_wf, h.sp_le, h.slot_le, h.pc_le, h.halted_iff, h.fatal_code, h.unimplemented_code⟩

theorem of_effect (h : s.Inv) (hr : s.Runs) (effect : Effect s.advance i t) : (t.withStatus statusOk).Inv := by
  have hpc : s.advance.pc.toNat ≤ 0x1000 := by
    have := hr.2.2.2
    rw [advance_pc]
    bv_omega
  have hrec := effect.sameFaultRecord
  exact {
    cfg_wf := (congrArg Config.wf effect.sameKeysAndParameters.2).trans h.cfg_wf
    mem_wf := effect.mem_wf h.mem_wf
    sp_le := effect.sp_le h.sp_le
    slot_le := effect.slot_le h.slot_le hpc
    pc_le := effect.pc_le h.slot_le hpc
    halted_iff := iff_of_false (Bool.eq_false_iff.mp (hrec.1.trans hr.1)) (by rw [withStatus_lastStatus]; decide)
    fatal_code := fun hh => absurd (hh.symm.trans (hrec.1.trans hr.1)) (by decide)
    unimplemented_code := fun hq => absurd hq (by rw [withStatus_lastStatus]; decide) }

theorem step (h : s.Inv) (hs : step s = .next t) : t.Inv := by
  cases hh : s.halted with
  | true =>
    cases (step_of_halted s hh).symm.trans hs
    exact h
  | false =>
    cases step_ends s hh hs with
    | retires runs u effect => exact h.of_effect runs effect
    | waits => exact h.withStatus hh (by decide) (by decide)
    | faults e => exact h.takeFault hh e _ _

end State.Inv

/-- From the invariant a step answers a next state: SP is at most the stack's capacity. -/
theorem step_answers (h : s.Inv) : ∃ t, step s = .next t := by
  obtain ⟨-, hs⟩ | ⟨-, -, hs⟩ | ⟨-, -, hs⟩ := step_cases s
  · exact ⟨_, hs⟩
  · exact ⟨_, hs⟩
  · rw [hs]
    exact exec_answers s.advance _ fun _ => h.sp_le

/-! ### The host's operations -/

theorem inv_resetFor (c : Config) (r : Byte) (n : Nat) (hc : c.wf = true) : (State.resetFor c r n).Inv where
  cfg_wf := hc
  mem_wf := rfl
  sp_le := Nat.zero_le _
  slot_le := fun k => by simp [State.stackSlot, State.resetFor]
  pc_le := (by decide : (0x200 : Word).toNat ≤ 0x10FE)
  halted_iff := iff_of_false Bool.false_ne_true (by decide : statusOk ≠ statusFault)
  fatal_code := fun h => absurd h Bool.false_ne_true
  unimplemented_code := fun h => absurd h (by decide : statusOk ≠ statusUnimplemented)

theorem inv_loadRom (bytes : List Byte) (h : s.Inv) : (loadRom bytes s).2.Inv := by
  unfold loadRom
  split
  · exact h
  · next hfits =>
    have hreset := inv_resetFor s.cfg s.draw s.drawCount h.cfg_wf
    have hmem := pokeBytes_wf (resetOp s) programStart bytes hreset.mem_wf
      (.inr (Nat.add_le_of_le_sub' (by decide) (Nat.le_of_not_lt hfits)))
    rw [pokeBytes_frame]
    exact { hreset with mem_wf := hmem }

theorem stepWith_answers (r : Byte) (h : s.Inv) : ∃ t, stepWith r s = .next t ∧ t.Inv := by
  have hdraw : (s.withDraw r).Inv := h.unconstrained _ _ _ r _
  obtain ⟨t, ht⟩ := step_answers hdraw
  refine ⟨_, by rw [stepWith_eq, ht]; rfl, (hdraw.step ht).unconstrained _ _ _ _ _⟩

/-- By induction on the draws. -/
theorem stepNFrom_answers (last : Option StepResult) (count : Nat) (rs : List Byte) (h : s.Inv) :
    ∃ a, stepNFrom last count rs s = .next a ∧ a.state.Inv := by
  induction rs generalizing s last count with
  | nil => exact ⟨_, rfl, h⟩
  | cons r rs ih =>
    obtain ⟨t, ht, hinv⟩ := stepWith_answers r h
    rw [stepNFrom, ht]
    dsimp only
    split
    · exact ⟨_, rfl, hinv⟩
    · exact ih _ _ hinv

theorem hostOp_answers (o : HostOp) (h : s.Inv) : ∃ r t, hostOp o s = .next (r, t) ∧ t.Inv := by
  cases o with
  | reset => exact ⟨_, _, rfl, inv_resetFor _ _ _ h.cfg_wf⟩
  | loadRom bytes => exact ⟨_, _, rfl, inv_loadRom bytes h⟩
  | step r =>
    obtain ⟨t, ht, hinv⟩ := stepWith_answers r h
    exact ⟨_, t, by rw [hostOp, ht], hinv⟩
  | stepN rs =>
    obtain ⟨a, ha, hinv⟩ := stepNFrom_answers none 0 rs h
    exact ⟨_, a.state, by rw [hostOp, stepN, ha], hinv⟩
  | tick => exact ⟨_, _, rfl, h.unconstrained _ _ _ _ _⟩
  | setKeys k => exact ⟨_, _, rfl, h.unconstrained _ _ k _ _⟩
  | readFb | readKeys | readSound | readStatus => exact ⟨_, s, rfl, h⟩

end Sys2Proof.Machine

open Sys2Proof Sys2Proof.Machine

/-- Settles O17: nothing is filled and nothing has faulted at reset; the parameters are the only hypothesis. -/
theorem invariantHoldsAtReset : Obligations.InvariantHoldsAtReset :=
  ⟨inv_resetFor _ _ _ (by decide), inv_resetFor⟩

/-- Settles O18: the invariant through each way a step can end. -/
theorem stepKeepsInvariant : Obligations.StepKeepsInvariant :=
  ⟨fun _ _ => State.Inv.step, fun _ => step_answers⟩

/-- Settles O19, by induction on the list of operations. -/
theorem hostOperationsKeepInvariant : Obligations.HostOperationsKeepInvariant := by
  intro ops
  induction ops with
  | nil => exact fun s h => ⟨[], s, rfl, rfl, h⟩
  | cons o ops ih =>
    intro s h
    obtain ⟨r, t, ht, hinv⟩ := hostOp_answers o h
    obtain ⟨rs, u, hu, hlen, hinv'⟩ := ih t hinv
    exact ⟨r :: rs, u, by rw [hostOps, ht]; dsimp only; rw [hu], congrArg Nat.succ hlen, hinv'⟩
end

section
/-! PROOFS. Decoding by the opcode table (R53, R54, R56, R58): the row a word matches, and the words of no row. -/

namespace Sys2Proof

/-! ### RAW words -/

theorem isRawWord_iff_decode_eq_raw (w : Word) : isRawWord w = true ↔ decode w = .raw w := by
  refine ⟨decode_of_isRawWord, fun h => ?_⟩
  have hwf := wellFormed_decode w
  rwa [h] at hwf

theorem eq_of_decode_eq_raw {w v : Word} (h : decode w = .raw v) : v = w := by
  have henc := encode_decode w
  rwa [h] at henc

/-! ### A word of a row decodes to that row -/

/-- Outside group 0 the row of a decoded word depends on its op nibble and, in the groups that have them, on the
sub-function bits. -/
theorem opcodeRow_decode_congr {w v : Word} (hop : fieldOp w = fieldOp v) (h0 : fieldOp v ≠ 0x0)
    (hn : fieldOp v ∈ ([0x5, 0x8, 0x9] : List (Fin 16)) → fieldN w = fieldN v)
    (hkk : fieldOp v ∈ ([0xE, 0xF] : List (Fin 16)) → fieldKk w = fieldKk v) :
    opcodeRow (decode w) = opcodeRow (decode v) := by
  unfold decode
  rw [hop]
  split
  case h_1 hv => exact absurd hv h0
  case h_6 hv | h_10 hv =>
    rw [hn (by simp [hv])]
    split_ifs <;> rfl
  case h_9 hv =>
    unfold decodeGroup8
    rw [hn (by simp [hv])]
    split <;> rfl
  case h_15 hv =>
    unfold decodeGroupE
    rw [hkk (by simp [hv])]
    split_ifs <;> rfl
  case h_16 =>
    have hv : fieldOp v = 0xF := by grind
    unfold decodeGroupF
    rw [hkk (by simp [hv])]
    split_ifs <;> rfl
  all_goals rfl

/-- A word of group 0 is CLS, RET or SYS (R54). -/
theorem decode_of_group0 {w : Word} (hop : fieldOp w = 0x0) :
    (w = 0x00E0 ∧ decode w = .cls) ∨ (w = 0x00EE ∧ decode w = .ret) ∨
      (w ≠ 0x00E0 ∧ w ≠ 0x00EE ∧ decode w = .sys (fieldNnn w)) := by
  have hd : decode w = decodeGroup0 w := by simp only [decode, hop]
  rw [hd, decodeGroup0]
  split_ifs with hcls hret
  · exact .inl ⟨hcls, rfl⟩
  · exact .inr (.inl ⟨hret, rfl⟩)
  · exact .inr (.inr ⟨hcls, hret, rfl⟩)

/-- The bits of a row's mask hold all that selects the row; only SYS's row leaves room for others, those of R54's two
words. -/
theorem opcodeRow_decode_of_match {w : Word} {j : Instr} {row : OpcodeRow} (hr : opcodeRow j = some row)
    (hw : w &&& row.mask = row.value) :
    opcodeRow (decode w) = some row ∨
      (row = ⟨0xF000, 0x0000⟩ ∧ (w = 0x00E0 ∧ decode w = .cls ∨ w = 0x00EE ∧ decode w = .ret)) := by
  obtain ⟨hop, hn, hkk⟩ := mask_covers_selectors hr
  have selected (h0 : fieldOp row.value ≠ 0x0) : opcodeRow (decode w) = opcodeRow (decode row.value) :=
    opcodeRow_decode_congr (nibbleAt_of_and hop hw) h0 (fun h => nibbleAt_of_and (hn h) hw)
      fun h => fieldKk_of_and (hkk h) hw
  cases j with
  | raw v => nomatch hr
  | cls | ret =>
    cases hr
    obtain rfl := BitVec.and_allOnes.symm.trans hw
    exact .inl rfl
  | sys nnn =>
    cases hr
    obtain ⟨rfl, hd⟩ | ⟨rfl, hd⟩ | ⟨-, -, hd⟩ := decode_of_group0 (nibbleAt_of_and hop hw)
    · exact .inr ⟨rfl, .inl ⟨rfl, hd⟩⟩
    · exact .inr ⟨rfl, .inr ⟨rfl, hd⟩⟩
    · exact .inl (congrArg opcodeRow hd)
  | _ =>
    cases hr
    exact .inl (selected (by decide))

/-! ### The fields stand in the bits that the row's mask leaves open -/

theorem formatA_zero (a : Addr) : formatA 0 a = a.setWidth 16 := (formatA_eq_or 0 a).trans BitVec.zero_or

theorem formatXK_zero (x : Reg) (k : Byte) : formatXK 0 x k = (BitVec.ofNat 16 x.val <<< 8) ||| k.setWidth 16 :=
  (formatXK_eq_or 0 x k).trans BitVec.zero_or

theorem formatXY_zero (x y : Reg) (n : BitVec 4) : formatXY 0 x y n =
    (BitVec.ofNat 16 x.val <<< 8) ||| (BitVec.ofNat 16 y.val <<< 4) ||| BitVec.ofNat 16 n.toNat :=
  (formatXY_eq_or 0 x y n).trans BitVec.zero_or

theorem addr_and_mask (a : Addr) : a.setWidth 16 &&& (0xF000 : Word) = 0 :=
  (congrArg (· &&& 0xF000) (formatA_zero a).symm).trans (Laws.formatA_and 0 a)

theorem reg_byte_and_mask (x : Reg) (k : Byte) :
    ((BitVec.ofNat 16 x.val <<< 8) ||| k.setWidth 16) &&& (0xF000 : Word) = 0 :=
  (congrArg (· &&& 0xF000) (formatXK_zero x k).symm).trans (Laws.formatXK_and_op 0 x k)

theorem reg_and_mask (x : Reg) : (BitVec.ofNat 16 x.val <<< 8) &&& (0xF0FF : Word) = 0 :=
  (congrArg (· &&& 0xF0FF) ((formatXK_zero x 0).trans BitVec.or_zero).symm).trans (Laws.formatXK_and_sub 0 x 0)

theorem reg_reg_and_mask (x y : Reg) :
    ((BitVec.ofNat 16 x.val <<< 8) ||| (BitVec.ofNat 16 y.val <<< 4)) &&& (0xF00F : Word) = 0 :=
  (congrArg (· &&& 0xF00F) ((formatXY_zero x y 0).trans BitVec.or_zero).symm).trans (Laws.formatXY_and_sub 0 x y 0)

theorem reg_reg_nibble_and_mask (x y : Reg) (n : Fin 16) :
    ((BitVec.ofNat 16 x.val <<< 8) ||| (BitVec.ofNat 16 y.val <<< 4) ||| BitVec.ofNat 16 n.val) &&& (0xF000 : Word) =
      0 :=
  (congrArg (· &&& 0xF000) (formatXY_zero x y (nibbleBits n)).symm).trans (Laws.formatXY_and_op 0 x y (nibbleBits n))

theorem fieldBits_and_mask {i : Instr} {row : OpcodeRow} (hr : opcodeRow i = some row) :
    fieldBits i &&& row.mask = 0 := by
  cases i with
  | raw w => nomatch hr
  | cls | ret => cases hr; rfl
  | sys nnn | jp nnn | call nnn | ldINnn nnn | jpV0 nnn => cases hr; exact addr_and_mask nnn
  | seVxKk x kk | sneVxKk x kk | ldVxKk x kk | addVxKk x kk | rand x kk => cases hr; exact reg_byte_and_mask x kk
  | seVxVy x y | ldVxVy x y | orVxVy x y | andVxVy x y | xorVxVy x y | addVxVy x y | subVxVy x y | shrVxVy x y
  | subnVxVy x y | shlVxVy x y | sneVxVy x y => cases hr; exact reg_reg_and_mask x y
  | drw x y n => cases hr; exact reg_reg_nibble_and_mask x y n
  | skp x | sknp x | ldVxDt x | ldVxK x | ldDtVx x | ldStVx x | addIVx x | ldFVx x | ldBcdVx x | ldIVx x | ldVxI x =>
    cases hr; exact reg_and_mask x

/-- A row's match lies under its mask. -/
theorem value_and_mask {i : Instr} {row : OpcodeRow} (hr : opcodeRow i = some row) :
    row.value &&& row.mask = row.value := by
  cases i with
  | raw w => nomatch hr
  | _ => cases hr; rfl

/-- A word put together from a match under the mask and fields outside it is taken apart by the mask. -/
theorem or_and_mask {v f m : Word} (hv : v &&& m = v) (hf : f &&& m = 0) :
    (v ||| f) &&& m = v ∧ f = (v ||| f) &&& ~~~m := by
  constructor
  · rw [BitVec.and_or_distrib_right, hv, hf]
    exact BitVec.or_zero
  · have hvm : v &&& ~~~m = 0 := by
      rw [← hv, BitVec.and_assoc, BitVec.and_not_self]
      exact BitVec.and_zero
    calc f
      _ = f &&& (m ||| ~~~m) := by rw [BitVec.or_not_self, BitVec.and_allOnes]
      _ = (v ||| f) &&& ~~~m := by rw [BitVec.and_or_distrib_left, hf, BitVec.and_or_distrib_right, hvm]

/-- A decoded word has the bits of its row, and its fields are the bits outside the row's mask. -/
theorem decode_matches_row {w : Word} {row : OpcodeRow} (hr : opcodeRow (decode w) = some row) :
    w &&& row.mask = row.value ∧ fieldBits (decode w) = w &&& ~~~row.mask := by
  have hw : row.value ||| fieldBits (decode w) = w := (encode_eq_value_or_fields hr).symm.trans (encode_decode w)
  have hsplit := or_and_mask (value_and_mask hr) (fieldBits_and_mask hr)
  rwa [hw] at hsplit

/-- A word that matches no row decodes to RAW. -/
theorem decode_of_no_row {w : Word} (h : ∀ j row, opcodeRow j = some row → w &&& row.mask ≠ row.value) :
    decode w = .raw w := by
  cases hr : opcodeRow (decode w) with
  | some row => exact absurd (decode_matches_row hr).1 (h _ row hr)
  | none =>
    cases hd : decode w with
    | raw v => rw [eq_of_decode_eq_raw hd]
    | _ => rw [hd] at hr; nomatch hr

end Sys2Proof

open Sys2Proof

/-- Settles O3: the matching row by the bits that select it, the fields by the row's mask. -/
theorem decodeTakesTheMatchingRow : Obligations.DecodeTakesTheMatchingRow := by
  refine ⟨fun w j row => opcodeRow_decode_of_match, fun w row => decode_matches_row, fun w hlt hcls hret => ?_,
    fun w => decode_of_no_row⟩
  have hop : fieldOp w = 0x0 := Fin.ext ((fieldOp_val w).trans (by simp; omega))
  obtain ⟨h, -⟩ | ⟨h, -⟩ | ⟨-, -, hd⟩ := decode_of_group0 hop
  · exact absurd h hcls
  · exact absurd h hret
  · exact hd

/-- Settles O4: a word of a row is no listed word, and a word of no row decodes to RAW. -/
theorem rawExactlyTheUnmatchedWords : Obligations.RawExactlyTheUnmatchedWords := by
  refine fun w => ⟨⟨fun hraw j row hr hw => ?_, fun h => (isRawWord_iff_decode_eq_raw w).mpr (decode_of_no_row h)⟩,
    isRawWord_iff_decode_eq_raw w, fun v hd => ?_⟩
  · exact Bool.false_ne_true ((isRawWord_eq_false_of_matches_row hr hw).symm.trans hraw)
  · obtain rfl := eq_of_decode_eq_raw hd
    exact ⟨rfl, (isRawWord_iff_decode_eq_raw v).mpr hd⟩

/-- Settles O5: thirteen closed words, each decoded. -/
theorem sampleWordsDecode : Obligations.SampleWordsDecode := by
  unfold Obligations.SampleWordsDecode
  decide
end

section
/-! PROOFS. Control transfer and skips (41_control_flow.md, 42_skips.md, 46_timers_keypad.md): which PC each leaves, and
the frame of an instruction that writes only PC. -/

namespace Sys2Proof.Machine

variable (s : State)

/-! ### Frames -/

theorem sameOutsideRegisters (v : Vector Byte 16) (i pc : Word) (q : BitVec 2) :
    SameOutsideRegisters s { s with v := v, i := i, pc := pc, lastStatus := q } :=
  ⟨fun _ => rfl, ⟨rfl, fun _ => rfl⟩, ⟨rfl, rfl⟩, fun _ _ _ _ => rfl, ⟨rfl, rfl, rfl, rfl, rfl⟩, ⟨rfl, rfl⟩, rfl, rfl⟩

theorem writesOnlyPc (pc : Word) (q : BitVec 2) : WritesOnlyPc s { s with pc := pc, lastStatus := q } :=
  ⟨fun _ _ => rfl, rfl, sameOutsideRegisters s s.v s.i pc q⟩

/-! ### Jumps and skips retire with another PC -/

theorem exec_jp (nnn : Addr) : exec (.jp nnn) s = .next { s with pc := zextAddr nnn, lastStatus := statusOk } := rfl

theorem retire_skipIf (c : Bool) :
    retire (s.skipIf c) = .next { s with pc := if c then s.pc + 2 else s.pc, lastStatus := statusOk } := by
  cases c <;> rfl

/-- A skip taken when `c` holds: the PC it leaves and its frame. -/
theorem retire_skipIf_frame {c : Bool} {pc : Word} (hpc : (if c then s.pc + 2 else s.pc) = pc) :
    ∃ t, retire (s.skipIf c) = .next t ∧ t.pc = pc ∧ t.lastStatus = statusOk ∧ WritesOnlyPc s t :=
  ⟨_, retire_skipIf s c, hpc, rfl, writesOnlyPc s _ _⟩

end Sys2Proof.Machine

open Sys2Proof Sys2Proof.Machine

/-- Settles O21: SYS raises in every state. -/
theorem sysRaisesUnimplemented : Obligations.SysRaisesUnimplemented :=
  fun _ s => ⟨_, rfl, faulted_takeFault s.unfetch _ _ _, stepResult_takeFault s.unfetch _ _ _⟩

/-- Settles O22: RAW raises in every state, in the state before the fetch. -/
theorem rawRaisesUnimplemented : Obligations.RawRaisesUnimplemented :=
  fun _ s => ⟨_, rfl, faulted_takeFault s.unfetch _ _ _, stepResult_takeFault s.unfetch _ _ _, Bool.or_false _,
    BitVec.sub_add_cancel s.pc 2⟩

/-- Settles O23: the jump by its one equation, the fault by the target no fetch accepts. -/
theorem jumpLoadsAddress : Obligations.JumpLoadsAddress := by
  refine fun nnn => ⟨decode_encode (i := .jp nnn) rfl, fun s => ⟨_, exec_jp s nnn, zextAddr_toNat nnn, rfl,
    writesOnlyPc s _ _, fun hh hbad => ?_⟩⟩
  have hpc := zextAddr_toNat nnn
  obtain ⟨u, hu, -, hresult⟩ := invalidPcFaultsAtFetch { s with pc := zextAddr nnn, lastStatus := statusOk } hh
    (by dsimp only; omega)
  exact ⟨u, hu, hresult⟩

/-- Settles O24: the equations of CALL with room on the stack and on a full one. -/
theorem callPushesReturnAddress : Obligations.CallPushesReturnAddress := by
  refine fun nnn => ⟨decode_encode (i := .call nnn) rfl, fun s => ⟨fun hroom => ?_, fun hfull => ?_⟩⟩
  · have hsp : (s.sp + 1).toNat = s.sp.toNat + 1 := by bv_omega
    exact ⟨_, exec_call_of_room s nnn hroom, getElem_set_slot s.stack _ hroom s.pc, hsp, zextAddr_toNat nnn, rfl,
      fun _ _ => rfl, rfl, fun _ => rfl, ⟨rfl, rfl⟩, fun _ _ _ _ => rfl, SameFaultRecord.refl s, ⟨rfl, rfl⟩, rfl, rfl⟩
  · rw [exec_call_of_full s nnn hfull, show Raise.stackOverflow s.sp = .stackOverflow 16 from
      congrArg _ (BitVec.eq_of_toNat_eq hfull)]
    exact faulted_raiseFault s (.call nnn) _

/-- Settles O25: the equations of RET with an entry on the stack and on an empty one. -/
theorem retPopsReturnAddress : Obligations.RetPopsReturnAddress := by
  refine ⟨decode_encode (i := .ret) rfl, fun s => ⟨fun k hk => ?_, fun hempty => ?_⟩⟩
  · have hsp : (s.sp - 1).toNat = k.val := by bv_omega
    exact ⟨_, exec_ret_of_filled s k hk, rfl, hsp, fun _ => rfl, rfl, fun _ _ => rfl, rfl, fun _ => rfl, ⟨rfl, rfl⟩,
      fun _ _ _ _ => rfl, SameFaultRecord.refl s, ⟨rfl, rfl⟩, rfl, rfl⟩
  · rw [exec_ret_of_empty s hempty, show Raise.stackUnderflow s.sp = .stackUnderflow 0 from
      congrArg _ (BitVec.eq_of_toNat_eq hempty)]
    exact faulted_raiseFault s .ret _

/-- Settles O26: 12 and 8 bits add up to 16 without a carry. -/
theorem jumpV0AddsOffset : Obligations.JumpV0AddsOffset := by
  refine fun nnn => ⟨decode_encode (i := .jpV0 nnn) rfl, fun s =>
    ⟨_, rfl, jumpV0_toNat nnn _, ?_, rfl, writesOnlyPc s _ _⟩⟩
  show (zextAddr nnn + zextByte (s.getV 0)).toNat ≤ 0x10FE
  rw [jumpV0_toNat]
  omega

/-- Settles O27: the two skips by the condition each tests. -/
theorem byteSkipsCompareRegister : Obligations.ByteSkipsCompareRegister :=
  fun x kk => ⟨decode_encode (i := .seVxKk x kk) rfl, decode_encode (i := .sneVxKk x kk) rfl, fun s =>
    ⟨retire_skipIf_frame s (by simp), retire_skipIf_frame s (by simp)⟩⟩

/-- Settles O28: as for a byte; with `x = y` the two registers are one. -/
theorem registerSkipsCompareRegisters : Obligations.RegisterSkipsCompareRegisters := by
  refine fun x y => ⟨decode_encode (i := .seVxVy x y) rfl, decode_encode (i := .sneVxVy x y) rfl, fun n hn => ?_,
    fun s => ⟨⟨_, retire_skipIf s _, by simp, by rintro rfl; simp, rfl, writesOnlyPc s _ _⟩,
      ⟨_, retire_skipIf s _, by simp, by rintro rfl; simp, rfl, writesOnlyPc s _ _⟩⟩⟩
  have hn' : n.toFin ≠ 0 := fun h => hn (BitVec.toFin_inj.mp h)
  exact ⟨decode_of_isRawWord ((isRawWord_iff (formatXY 0x5 x y n)).mpr (by simp [hn'])),
    decode_of_isRawWord ((isRawWord_iff (formatXY 0x9 x y n)).mpr (by simp [hn']))⟩

/-- Settles O46: the equations of SKP and SKNP for a key and for none. -/
theorem keySkipsReadKeypad : Obligations.KeySkipsReadKeypad := by
  refine fun x s => ⟨decode_encode (i := .skp x) rfl, decode_encode (i := .sknp x) rfl, fun hk => ?_, fun hk => ?_⟩
  · rw [exec_skp_of_key s x hk, exec_sknp_of_key s x hk]
    exact ⟨retire_skipIf_frame s rfl, retire_skipIf_frame s (by cases s.keys.getLsbD _ <;> rfl)⟩
  · rw [exec_skp_of_no_key s x hk, exec_sknp_of_no_key s x hk]
    exact ⟨faulted_raiseFault s (.skp x) _, faulted_raiseFault s (.sknp x) _⟩
end

section
/-! PROOFS. Registers, arithmetic, the index register, timers and the waiting key (43_register_alu.md,
44_index_memory.md, 46_timers_keypad.md): the value each leaves, and the frame of each shared write. -/

namespace Sys2Proof.Machine

variable (s : State)

/-! ### Frames of the shared writes -/

theorem writesOnlyRegs {written : List Reg} {v : Vector Byte 16} (h : ∀ r : Reg, r ∉ written → v[r] = s.getV r)
    (q : BitVec 2) : WritesOnlyRegs written s { s with v := v, lastStatus := q } :=
  ⟨h, rfl, rfl, sameOutsideRegisters s v s.i s.pc q⟩

theorem writesOnlyIndex (w : Word) (q : BitVec 2) : WritesOnlyIndex s { s with i := w, lastStatus := q } :=
  ⟨fun _ _ => rfl, rfl, sameOutsideRegisters s s.v w s.pc q⟩

/-- A write to Vx and nothing else, with the value it leaves. -/
theorem retire_setV (x : Reg) (b : Byte) : ∃ t, retire (s.setV x b) = .next t ∧ t.getV x = b ∧ t.lastStatus = statusOk ∧
    WritesOnlyRegs [x] s t := by
  refine ⟨_, rfl, ?_, rfl, writesOnlyRegs s (fun r hr => ?_) _⟩
  · rw [getV_withStatus, getV_setV, if_pos rfl]
  · exact (getV_setV s x r b).trans (if_neg fun h => hr (by simp [h]))

/-- A result and then the flag: where x is F the flag overwrites the result (R78). -/
theorem retire_setResultAndFlag (x : Reg) (b : Byte) (f : Bool) :
    ∃ t, retire (s.setResultAndFlag x b f) = .next t ∧ (x ≠ vF → t.getV x = b) ∧ t.getV vF = flagByte f ∧
      t.lastStatus = statusOk ∧ WritesOnlyRegs [x, vF] s t := by
  have hread (r : Reg) : (s.setResultAndFlag x b f).getV r =
      if vF = r then flagByte f else if x = r then b else s.getV r := by
    rw [State.setResultAndFlag, getV_setV, getV_setV]
  refine ⟨_, rfl, fun hx => ?_, ?_, rfl, writesOnlyRegs s (fun r hr => (hread r).trans ?_) _⟩
  · rw [getV_withStatus, hread, if_neg hx.symm, if_pos rfl]
  · rw [getV_withStatus, hread, if_pos rfl]
  · simp only [List.mem_cons, List.not_mem_nil, or_false, not_or] at hr
    rw [if_neg (Ne.symm hr.2), if_neg (Ne.symm hr.1)]

/-- A logical result, and VF reset with LOGIC_RESETS_VF (R97). -/
theorem retire_logicFlag (x : Reg) (b : Byte) :
    ∃ t, retire (s.setV x b).logicFlag = .next t ∧ (¬(s.cfg.logicResetsVf = true ∧ x = vF) → t.getV x = b) ∧
      (s.cfg.logicResetsVf = true → t.getV vF = 0) ∧ t.lastStatus = statusOk ∧
      WritesOnlyRegs (if s.cfg.logicResetsVf then [x, vF] else [x]) s t := by
  rw [State.logicFlag, setV_cfg]
  cases s.cfg.logicResetsVf with
  | true =>
    obtain ⟨t, ht, hx, hF, hok, hw⟩ := retire_setResultAndFlag s x b false
    exact ⟨t, ht, fun h => hx fun hxF => h ⟨rfl, hxF⟩, fun _ => hF, hok, hw⟩
  | false =>
    obtain ⟨t, ht, hx, hok, hw⟩ := retire_setV s x b
    exact ⟨t, ht, fun _ => hx, fun h => absurd h Bool.false_ne_true, hok, hw⟩

/-! ### Values -/

theorem flagByte_decide (p : Prop) [Decidable p] : flagByte (decide p) = if p then 1 else 0 := by
  by_cases h : p <;> simp [flagByte, h]

theorem flagByte_toNat (f : Bool) : (flagByte f).toNat = f.toNat := by cases f <;> rfl

theorem getLsbD_toNat (b : Byte) (k : Nat) : (b.getLsbD k).toNat = b.toNat / 2 ^ k % 2 := Nat.toNat_testBit _ _

theorem shiftSource_toNat (x y : Reg) :
    (s.shiftSource x y).toNat = if s.cfg.shiftUsesVy then (s.getV y).toNat else (s.getV x).toNat :=
  apply_ite BitVec.toNat _ _ _

theorem sub_toNat (a b : Byte) : ((a - b).toNat : Int) = ((a.toNat : Int) - b.toNat) % 256 := by
  rw [BitVec.toNat_sub]
  omega

/-- R7's condition: the font has its 16 glyphs, and they end below 0x200. -/
theorem config_wf_iff (c : Config) :
    c.wf = true ↔ c.fontData.length = 16 * c.glyphBytes ∧ c.fontBase.toNat + 16 * c.glyphBytes ≤ 0x200 := by
  rw [Config.wf, Bool.and_eq_true, beq_iff_eq, decide_eq_true_iff]

/-- The parameters of R7 keep the font, and so every glyph address, below 0x200. -/
theorem fontAddr_toNat {c : Config} (hc : c.wf = true) (b : Byte) :
    (fontAddr c b).toNat = c.fontBase.toNat + c.glyphBytes * (b.toNat % 16) := by
  have hfits := ((config_wf_iff c).mp hc).2
  have hlow : (b &&& 0xF).toNat = b.toNat % 16 :=
    (BitVec.toNat_and b 0xF).trans (Nat.and_two_pow_sub_one_eq_mod b.toNat 4)
  have hglyph : c.glyphBytes * (b.toNat % 16) ≤ c.glyphBytes * 16 := Nat.mul_le_mul_left _ (Nat.mod_lt _ (by decide)).le
  rw [fontAddr, hlow, BitVec.toNat_ofNat, Nat.mod_eq_of_lt (by omega)]

end Sys2Proof.Machine

open Sys2Proof Sys2Proof.Machine

/-- Settles O29: one write to Vx each. -/
theorem loadsCopyIntoRegister : Obligations.LoadsCopyIntoRegister :=
  fun x y kk => ⟨decode_encode (i := .ldVxKk x kk) rfl, decode_encode (i := .ldVxVy x y) rfl,
    fun s => ⟨retire_setV s x kk, retire_setV s x (s.getV y)⟩⟩

/-- Settles O30: one write to Vx, of a sum of bytes. -/
theorem addByteWrapsWithoutFlag : Obligations.AddByteWrapsWithoutFlag := by
  refine fun x kk s => ⟨decode_encode (i := .addVxKk x kk) rfl, ?_⟩
  obtain ⟨t, ht, hx, hframe⟩ := retire_setV s x (s.getV x + kk)
  exact ⟨t, ht, by rw [hx]; exact BitVec.toNat_add _ _, hframe⟩

/-- Settles O31: the bit of the result is the operation of the bits, and VF is the shared logical write's. -/
theorem logicActsBitwise : Obligations.LogicActsBitwise := by
  refine fun x y s => ⟨decode_encode (i := .orVxVy x y) rfl, decode_encode (i := .andVxVy x y) rfl,
    decode_encode (i := .xorVxVy x y) rfl, fun i f hi => ?_⟩
  have hresult : ∃ b : Byte, exec i s = retire (s.setV x b).logicFlag ∧
      ∀ k, b.getLsbD k = f ((s.getV x).getLsbD k) ((s.getV y).getLsbD k) := by
    obtain ⟨rfl, rfl⟩ | ⟨rfl, rfl⟩ | ⟨rfl, rfl⟩ := hi
    · exact ⟨_, rfl, fun k => BitVec.getLsbD_or⟩
    · exact ⟨_, rfl, fun k => BitVec.getLsbD_and⟩
    · exact ⟨_, rfl, fun k => BitVec.getLsbD_xor⟩
  obtain ⟨b, hexec, hb⟩ := hresult
  obtain ⟨t, ht, hx, hrest⟩ := retire_logicFlag s x b
  exact ⟨t, hexec.trans ht, fun h k _ => by rw [hx h, hb], hrest⟩

/-- Settles O32: the sum of bytes and its carry. -/
theorem addSetsCarry : Obligations.AddSetsCarry := by
  refine fun x y s => ⟨decode_encode (i := .addVxVy x y) rfl, ?_⟩
  obtain ⟨t, ht, hx, hF, hframe⟩ :=
    retire_setResultAndFlag s x (s.getV x + s.getV y) (carryOut (s.getV x) (s.getV y))
  exact ⟨t, ht, fun h => by rw [hx h]; exact BitVec.toNat_add _ _, hF.trans (flagByte_decide _), hframe⟩

/-- Settles O33: the difference of bytes and whether it borrows, in either order. -/
theorem subtractSetsNoBorrow : Obligations.SubtractSetsNoBorrow := by
  refine fun x y s => ⟨decode_encode (i := .subVxVy x y) rfl, decode_encode (i := .subnVxVy x y) rfl, ?_, ?_⟩
  · obtain ⟨t, ht, hx, hF, hframe⟩ :=
      retire_setResultAndFlag s x (s.getV x - s.getV y) (noBorrow (s.getV x) (s.getV y))
    exact ⟨t, ht, fun h => by rw [hx h, sub_toNat], hF.trans (flagByte_decide _), hframe⟩
  · obtain ⟨t, ht, hx, hF, hframe⟩ :=
      retire_setResultAndFlag s x (s.getV y - s.getV x) (noBorrow (s.getV y) (s.getV x))
    exact ⟨t, ht, fun h => by rw [hx h, sub_toNat], hF.trans (flagByte_decide _), hframe⟩

/-- Settles O34: half and double of the source, and its lowest and highest bit. -/
theorem shiftsMoveOneBit : Obligations.ShiftsMoveOneBit := by
  rintro x y s src hsrc
  rw [← shiftSource_toNat] at hsrc
  subst hsrc
  refine ⟨decode_encode (i := .shrVxVy x y) rfl, decode_encode (i := .shlVxVy x y) rfl, ?_, ?_⟩
  · obtain ⟨t, ht, hx, hF, hframe⟩ :=
      retire_setResultAndFlag s x (s.shiftSource x y >>> 1) (bitOutRight (s.shiftSource x y))
    refine ⟨t, ht, fun h => ?_, ?_, hframe⟩
    · rw [hx h, BitVec.toNat_ushiftRight, Nat.shiftRight_eq_div_pow, pow_one]
    · rw [hF, flagByte_toNat, bitOutRight, getLsbD_toNat, pow_zero, Nat.div_one]
  · obtain ⟨t, ht, hx, hF, hframe⟩ :=
      retire_setResultAndFlag s x (s.shiftSource x y <<< 1) (bitOutLeft (s.shiftSource x y))
    refine ⟨t, ht, fun h => ?_, ?_, hframe⟩
    · rw [hx h, BitVec.toNat_shiftLeft, Nat.shiftLeft_eq, pow_one]
    · rw [hF, flagByte_toNat, bitOutLeft, getLsbD_toNat]
      omega

/-- Settles O35: one write to Vx, of the draw under the mask; the next draw is outside the frame. -/
theorem randMasksTheDraw : Obligations.RandMasksTheDraw := by
  refine fun x kk s => ⟨decode_encode (i := .rand x kk) rfl, fun r => ?_⟩
  obtain ⟨t, ht, hx, -, hregs, hi, hpc, hmem, hstack, htimers, hdisplay, hrec, hkeys, -⟩ :=
    retire_setV (s.withDraw r) x (r &&& kk)
  cases ht
  exact ⟨_, rfl, fun b _ => (congrArg (BitVec.getLsbD · b) hx).trans BitVec.getLsbD_and, rfl, hregs, hi, hpc, hmem,
    hstack, htimers, hdisplay, hrec, hkeys⟩

/-- Settles O36: one write to I. -/
theorem loadIndexWritesAddress : Obligations.LoadIndexWritesAddress :=
  fun nnn s => ⟨decode_encode (i := .ldINnn nnn) rfl, _, rfl, zextAddr_toNat nnn, rfl, writesOnlyIndex s _ _⟩

/-- Settles O37: one write to I, of a sum of 16-bit words. -/
theorem addIndexWrapsWithoutFlag : Obligations.AddIndexWrapsWithoutFlag := by
  refine fun x s => ⟨decode_encode (i := .addIVx x) rfl, _, rfl, ?_, rfl, writesOnlyIndex s _ _⟩
  exact (BitVec.toNat_add _ _).trans (by rw [zextByte_toNat])

/-- Settles O38: one write to I, of the glyph's address. -/
theorem fontAddressOfLowNibble : Obligations.FontAddressOfLowNibble :=
  fun x s => ⟨decode_encode (i := .ldFVx x) rfl, fun hc =>
    ⟨_, rfl, fontAddr_toNat hc (s.getV x), rfl, writesOnlyIndex s _ _⟩⟩

/-- Settles O45: each move writes one register or one timer. -/
theorem timerMovesCopy : Obligations.TimerMovesCopy :=
  fun x s => ⟨decode_encode (i := .ldVxDt x) rfl, decode_encode (i := .ldDtVx x) rfl,
    decode_encode (i := .ldStVx x) rfl,
    retire_setV s x s.dt, ⟨_, rfl, rfl, rfl⟩, ⟨_, rfl, rfl, rfl, bne_iff_ne⟩⟩

/-- Settles O47: the smallest pressed key by what `lowestKey` finds, and nothing found when none is pressed. -/
theorem waitKeyTakesLowestKey : Obligations.WaitKeyTakesLowestKey := by
  refine fun x s => ⟨decode_encode (i := .ldVxK x) rfl, fun k hk hpressed hlowest => ?_, fun hnone => ?_⟩
  · rw [exec_ldVxK_of_pressed s x ((lowestKey_eq_some s.keys k).mpr ⟨hk, hpressed, hlowest⟩)]
    obtain ⟨t, ht, hx, hframe⟩ := retire_setV s x (BitVec.ofNat 8 k)
    exact ⟨t, ht, by rw [hx, BitVec.toNat_ofNat]; omega, hframe⟩
  · have hkeys : s.keys = 0 := BitVec.eq_of_getLsbD_eq fun k hk => (hnone k hk).trans BitVec.getLsbD_zero.symm
    exact exec_ldVxK_of_none s x ((lowestKey_eq_none s.keys).mpr hkeys)
end

section
/-! PROOFS. Memory and the accesses through I (20_memory.md, 44_index_memory.md): what a run of stores leaves at each
address, what a run of loads leaves in each register. -/

namespace Sys2Proof.Machine

variable (s : State)

/-! ### A run of stores -/

theorem pokeBytes_i (a : Nat) (bs : List Byte) : (s.pokeBytes a bs).i = s.i := by rw [pokeBytes_frame]
theorem pokeBytes_cfg (a : Nat) (bs : List Byte) : (s.pokeBytes a bs).cfg = s.cfg := by rw [pokeBytes_frame]

section Store

variable {s} {a : Nat} {bs : List Byte} (hm : Memory.wf s.cfg s.mem = true) (hin : a + bs.length ≤ memSize)
include hm hin

theorem readByte_pokeBytes_inside {k : Nat} (hk : k < bs.length) : (s.pokeBytes a bs).readByte (a + k) = bs[k] := by
  rw [readByte_pokeBytes s a bs hm (.inr hin), if_pos (Nat.le_add_right a k), Nat.add_sub_cancel_left,
    List.getD_eq_getElem _ _ hk]

theorem sameMemoryOutside_pokeBytes : SameMemoryOutside a bs.length s (s.pokeBytes a bs) := by
  intro k hk
  rw [readByte_pokeBytes s a bs hm (.inr hin)]
  split
  · exact List.getD_eq_default _ _ (by omega)
  · rfl

end Store

/-! ### A run of loads -/

theorem getV_setVs_readBytes (a : Nat) (x r : Reg) :
    (s.setVs 0 (s.readBytes a (x.val + 1))).getV r = if r ≤ x then s.readByte (a + r.val) else s.getV r := by
  rw [getV_setVs, if_pos (Nat.zero_le _), Nat.sub_zero, List.getD_eq_getElem?_getD]
  split
  · next hle => rw [readBytes_getElem? s a _ _ (Nat.lt_succ_of_le hle), Option.getD_some]
  · next hgt =>
    rw [List.getElem?_eq_none (by rw [readBytes_length]; exact Nat.succ_le_of_lt (Fin.not_le.mp hgt)), Option.getD_none]

/-! ### I after the access (R110, R111) -/

theorem stepIndex_i_toNat (x : Reg) : (s.stepIndex x).i.toNat =
    if s.cfg.loadstoreIncrementsI then (s.i.toNat + x.val + 1) % 65536 else s.i.toNat := by
  rw [State.stepIndex]
  split
  · show (s.i + BitVec.ofNat 16 (x.val + 1)).toNat = _
    rw [BitVec.toNat_add, BitVec.toNat_ofNat]
    omega
  · rfl

theorem readByte_stepIndex (x : Reg) (a : Nat) : (s.stepIndex x).readByte a = s.readByte a := by
  rw [stepIndex_frame]
  rfl

theorem getV_stepIndex (x r : Reg) : (s.stepIndex x).getV r = s.getV r := by
  rw [stepIndex_frame]
  rfl

theorem toNat_ofNat_byte {n : Nat} (h : n < 256) : (BitVec.ofNat 8 n).toNat = n := Nat.mod_eq_of_lt h

end Sys2Proof.Machine

open Sys2Proof Sys2Proof.Machine

/-- Settles O20: the two sides of the bound; a store in bounds is a write to memory, which is read back. -/
theorem byteAccessIsBoundsChecked : Obligations.ByteAccessIsBoundsChecked := by
  refine fun s a b hm => ⟨fun hout => ?_, fun hin => ?_⟩
  · have ha : ¬a < memSize := Nat.not_lt.mpr hout
    exact ⟨if_neg ha, if_neg ha, rfl⟩
  · have ha : a < memSize := Nat.lt_succ_of_le hin
    refine ⟨if_pos ha, s.pokeByte a b, if_pos ha, ?_, fun k hk => ?_⟩
    · rw [State.loadByte, if_pos ha, readByte_pokeByte s hm, if_pos rfl]
    · rw [readByte_pokeByte s hm, if_neg hk.symm]

/-- Settles O39: the three digits by the run of stores. -/
theorem bcdStoresDigits : Obligations.BcdStoresDigits := by
  refine fun x s hm => ⟨decode_encode (i := .ldBcdVx x) rfl, fun hin => ?_, fun hout => ?_⟩
  · have hdigit (k : Nat) (hk : k < 3) :=
      congrArg BitVec.toNat (readByte_pokeBytes_inside (bs := bcdDigits (s.getV x)) hm hin hk)
    exact ⟨_, exec_ldBcdVx_inside s x hin,
      (hdigit 0 (by decide)).trans (toNat_ofNat_byte (by omega)),
      (hdigit 1 (by decide)).trans (toNat_ofNat_byte (by omega)),
      (hdigit 2 (by decide)).trans (toNat_ofNat_byte (by omega)),
      sameMemoryOutside_pokeBytes (bs := bcdDigits (s.getV x)) hm hin,
      congrArg (State.withStatus · statusOk) (pokeBytes_frame s _ _)⟩
  · rw [exec_ldBcdVx_outside s x hout]
    exact faulted_raiseFault s (.ldBcdVx x) _

/-- Settles O40: the registers by the run of stores, and then I. -/
theorem registerStoreWritesRange : Obligations.RegisterStoreWritesRange := by
  refine fun x s hm => ⟨decode_encode (i := .ldIVx x) rfl, fun hin => ?_, fun hout => ?_⟩
  · have hlen := getVs_length s x
    have hin' : s.i.toNat + (s.getVs x).length ≤ memSize := hlen ▸ hin
    refine ⟨_, exec_ldIVx_inside s x hin, fun r hr => ?_, fun a ha => ?_, ?_, ?_⟩
    · have hk : r.val < (s.getVs x).length := hlen ▸ Nat.lt_succ_of_le hr
      rw [readByte_withStatus, readByte_stepIndex, readByte_pokeBytes_inside hm hin' hk]
      exact (List.getElem_eq_iff hk).mpr (getVs_getElem? s x r hr)
    · rw [readByte_withStatus, readByte_stepIndex]
      exact sameMemoryOutside_pokeBytes hm hin' a (hlen.symm ▸ ha)
    · rw [withStatus_i, stepIndex_i_toNat, pokeBytes_cfg, pokeBytes_i]
    · rw [stepIndex_frame, pokeBytes_frame]
      rfl
  · rw [exec_ldIVx_outside s x hout]
    exact faulted_raiseFault s (.ldIVx x) _

/-- Settles O41: the registers by the run of loads, and then I. -/
theorem registerLoadReadsRange : Obligations.RegisterLoadReadsRange := by
  refine fun x s => ⟨decode_encode (i := .ldVxI x) rfl, fun hin => ?_, fun hout => ?_⟩
  · rw [exec_ldVxI_inside s x hin]
    refine ⟨_, rfl, fun r => ?_, ?_, ?_, rfl, ?_⟩
    · rw [getV_withStatus, getV_stepIndex, getV_setVs_readBytes]
    · rw [withStatus_i, stepIndex_i_toNat, setVs_frame]
    · rw [stepIndex_frame, setVs_frame]
      rfl
    · rw [stepIndex_frame, setVs_frame]
      exact sameOutsideRegisters s _ _ s.pc _
  · rw [exec_ldVxI_outside s x hout]
    exact faulted_raiseFault s (.ldVxI x) _
end

section
/-! PROOFS. The display (45_display.md): which pixels a draw turns over and which it erases, and that drawing by rows is
drawing pixel by pixel. -/

namespace Sys2Proof.Machine

/-! ### A framebuffer is its pixels -/

theorem framebuffer_ext {f g : Framebuffer} (h : ∀ px qy, px < 64 → qy < 32 → pixel f px qy = pixel g px qy) :
    f = g := by
  refine Vector.ext fun qy hq => BitVec.eq_of_getMsbD_eq fun px hp => ?_
  have hpixel := h px qy hp hq
  rwa [pixel, pixel, dif_pos hq, dif_pos hq] at hpixel

/-- Only a pixel on the display is set. -/
theorem lt_of_pixel {fb : Framebuffer} {px qy : Nat} (h : pixel fb px qy = true) : px < 64 ∧ qy < 32 := by
  unfold pixel at h
  split at h
  · next hq => exact ⟨BitVec.lt_of_getMsbD h, hq⟩
  · cases h

/-- Two words meet in a set bit exactly when some column is set in both. -/
theorem and_ne_zero_iff (u v : BitVec 64) :
    (u &&& v != 0) = true ↔ ∃ px, u.getMsbD px = true ∧ v.getMsbD px = true := by
  rw [bne_iff_ne, ne_eq, ← not_iff_not, not_not]
  constructor
  · rintro h ⟨px, hu, hv⟩
    have hbit : (u &&& v).getMsbD px = true := by rw [BitVec.getMsbD_and, hu, hv, Bool.and_self]
    rw [h] at hbit
    exact absurd hbit (by simp)
  · intro h
    refine BitVec.eq_of_getMsbD_eq fun px _ => ?_
    cases hbit : (u &&& v).getMsbD px with
    | true => exact absurd ⟨px, Bool.and_eq_true_iff.mp (BitVec.getMsbD_and ▸ hbit)⟩ h
    | false => simp

/-! ### One row of a sprite -/

/-- The step of `drawRows`: XOR one sprite row onto display row `py`, where there is one. -/
def drawRow (b : Byte) (cx py : Nat) (acc : Framebuffer × Bool) : Framebuffer × Bool :=
  if h : py < 32 then
    (acc.1.set py (acc.1[py] ^^^ spriteRow b cx), acc.2 || acc.1[py] &&& spriteRow b cx != 0)
  else acc

theorem drawRows_cons (cx py : Nat) (b : Byte) (rows : List Byte) (acc : Framebuffer × Bool) :
    drawRows cx py (b :: rows) acc = drawRows cx (py + 1) rows (drawRow b cx py acc) := by
  rw [drawRows, drawRow]
  split <;> rfl

theorem pixel_drawRow (b : Byte) (cx py : Nat) (acc : Framebuffer × Bool) (px qy : Nat) (hq : qy < 32) :
    pixel (drawRow b cx py acc).1 px qy =
      xor (pixel acc.1 px qy) (decide (qy = py) && (spriteRow b cx).getMsbD px) := by
  unfold drawRow
  split
  · next hp =>
    rw [pixel_set]
    split
    · next he => subst he; simp [pixel, hp]
    · next hne => simp [hne]
  · have hne : qy ≠ py := by omega
    simp [hne]

theorem pixel_drawRow_of_ne (b : Byte) (cx py : Nat) (acc : Framebuffer × Bool) (px : Nat) {qy : Nat} (h : qy ≠ py) :
    pixel (drawRow b cx py acc).1 px qy = pixel acc.1 px qy := by
  unfold drawRow
  split
  · rw [pixel_set, if_neg h]
  · rfl

theorem erased_drawRow (b : Byte) (cx py : Nat) (acc : Framebuffer × Bool) :
    (drawRow b cx py acc).2 = true ↔
      acc.2 = true ∨ ∃ px, pixel acc.1 px py = true ∧ (spriteRow b cx).getMsbD px = true := by
  unfold drawRow
  split
  · next hp => simp only [Bool.or_eq_true, and_ne_zero_iff, pixel, dif_pos hp]
  · next hp => simp [pixel, dif_neg hp]

/-! ### The rows of the machine -/

theorem lt_of_rowsCover {cx py : Nat} {rows : List Byte} {px qy : Nat} (h : rowsCover cx (py + 1) rows px qy = true) :
    py < qy := by
  simp only [rowsCover, Bool.and_eq_true, decide_eq_true_eq] at h
  omega

/-- The erased flag of a draw: some set pixel was under a 1 bit. By induction on the rows: a row leaves the pixels under
the rows below it as they were. -/
theorem erased_drawRows (cx py : Nat) (rows : List Byte) (acc : Framebuffer × Bool) :
    (drawRows cx py rows acc).2 = true ↔
      acc.2 = true ∨ ∃ px qy, pixel acc.1 px qy = true ∧ rowsCover cx py rows px qy = true := by
  induction rows generalizing py acc with
  | nil =>
    have hnone (px qy : Nat) : rowsCover cx py [] px qy = false := by simp [rowsCover]
    simp [drawRows, hnone]
  | cons b rows ih =>
    rw [drawRows_cons, ih, erased_drawRow, or_assoc]
    refine or_congr Iff.rfl ⟨?_, ?_⟩
    · rintro (⟨px, hp, hs⟩ | ⟨px, qy, hp, hc⟩)
      · exact ⟨px, py, hp, by rwa [rowsCover_cons, if_pos rfl]⟩
      · have hne : qy ≠ py := (lt_of_rowsCover hc).ne'
        rw [pixel_drawRow_of_ne b cx py acc px hne] at hp
        exact ⟨px, qy, hp, by rwa [rowsCover_cons, if_neg hne]⟩
    · rintro ⟨px, qy, hp, hc⟩
      rw [rowsCover_cons] at hc
      split at hc
      · next he => exact .inl ⟨px, he ▸ hp, hc⟩
      · next hne => exact .inr ⟨px, qy, by rwa [pixel_drawRow_of_ne b cx py acc px hne], hc⟩

/-- A pixel is erased when it was set and is turned over. -/
theorem erased_iff_turned_off (cx py : Nat) (rows : List Byte) (fb : Framebuffer) :
    (drawRows cx py rows (fb, false)).2 = true ↔ ∃ px qy, px < 64 ∧ qy < 32 ∧
      pixel fb px qy = true ∧ pixel (drawRows cx py rows (fb, false)).1 px qy = false := by
  rw [erased_drawRows, or_iff_right Bool.false_ne_true]
  refine exists_congr fun px => exists_congr fun qy => ⟨fun ⟨hset, hc⟩ => ?_, fun ⟨_, hq, hset, hoff⟩ => ⟨hset, ?_⟩⟩
  · obtain ⟨hp, hq⟩ := lt_of_pixel hset
    exact ⟨hp, hq, hset, by rw [pixel_drawRows _ _ _ _ _ _ hq, hset, hc]; rfl⟩
  · rw [pixel_drawRows _ _ _ _ _ _ hq, hset] at hoff
    simpa using hoff

/-- The rows loaded from I cover the pixels under the sprite in memory. -/
theorem rowsCover_readBytes (s : State) (cx cy n px py : Nat) (hp : px < 64) :
    rowsCover cx cy (s.readBytes s.i.toNat n) px py = spriteCovers s cx cy n px py := by
  rw [rowsCover, spriteCovers, readBytes_length, spriteRow_getMsbD _ _ _ hp]
  by_cases hin : cy ≤ py ∧ py < cy + n
  · have hrow : (s.readBytes s.i.toNat n).getD (py - cy) 0 = s.readByte (s.i.toNat + (py - cy)) := by
      rw [List.getD_eq_getElem?_getD, readBytes_getElem? s _ _ _ (by omega), Option.getD_some]
    rw [hrow]
    simp [hin]
  · have hout : (decide (cy ≤ py) && decide (py < cy + n)) = false := by simpa using hin
    simp [hout, Bool.and_assoc]

/-! ### The columns of R113's inner loop -/

/-- The first `n` columns of the sprite row `b` at column `cx` have a 1 bit over column `px`. -/
def columnsCover (b : Byte) (cx n px : Nat) : Bool :=
  decide (cx ≤ px) && decide (px < cx + n) && b.getLsbD (7 - (px - cx))

theorem columnsCover_succ (b : Byte) (cx n px : Nat) :
    columnsCover b cx (n + 1) px = (columnsCover b cx n px || (decide (px = cx + n) && b.getLsbD (7 - n))) := by
  unfold columnsCover
  by_cases he : px = cx + n
  · subst he
    simp
  · have hlt : px < cx + (n + 1) ↔ px < cx + n := by omega
    simp [he, hlt]

theorem columnsCover_zero (b : Byte) (cx px : Nat) : columnsCover b cx 0 px = false := by
  unfold columnsCover
  by_cases h : cx ≤ px <;> simp [h]

theorem columnsCover_self (b : Byte) (cx n : Nat) : columnsCover b cx n (cx + n) = false := by simp [columnsCover]

theorem pixel_togglePixel (fb : Framebuffer) {px py : Nat} (hx : px < 64) (hy : py < 32) (qx qy : Nat) :
    pixel (togglePixel fb px py) qx qy = xor (pixel fb qx qy) (decide (qx = px) && decide (qy = py)) := by
  rw [togglePixel, dif_pos hy, pixel_set]
  split
  · next he =>
    subst he
    have hbit : (BitVec.twoPow 64 (63 - px)).getMsbD qx = decide (qx = px) := by
      rw [BitVec.getMsbD_twoPow, ← Bool.decide_and, decide_eq_decide]
      omega
    rw [BitVec.getMsbD_xor, hbit, pixel, dif_pos hy, decide_eq_true rfl, Bool.and_true]
  · next hne => simp [hne]

/-- The first `n` columns of R113's inner loop. -/
def drawColumns (b : Byte) (cx py n : Nat) (acc : Framebuffer × Bool) : Framebuffer × Bool :=
  (List.range n).foldl (drawColumn b cx py) acc

theorem drawColumns_succ (b : Byte) (cx py n : Nat) (acc : Framebuffer × Bool) :
    drawColumns b cx py (n + 1) acc = drawColumn b cx py (drawColumns b cx py n acc) n := by
  rw [drawColumns, List.range_succ, List.foldl_append]
  rfl

theorem pixel_drawColumns (b : Byte) (cx py n : Nat) (acc : Framebuffer × Bool) {px qy : Nat} (hp : px < 64)
    (hq : qy < 32) : pixel (drawColumns b cx py n acc).1 px qy =
      xor (pixel acc.1 px qy) (decide (qy = py) && columnsCover b cx n px) := by
  induction n with
  | zero => simp [drawColumns, columnsCover_zero]
  | succ n ih =>
    rw [drawColumns_succ, drawColumn, columnsCover_succ]
    split
    · next hon =>
      rw [pixel_togglePixel _ hon.1 hon.2.1, ih, hon.2.2, Bool.and_true]
      by_cases he : px = cx + n
      · rw [he, columnsCover_self]
        simp
      · simp [he]
    · next hoff =>
      have hbit (hy : qy = py) (hx : px = cx + n) : b.getLsbD (7 - n) = false := by
        subst hy hx
        simpa [hp, hq] using hoff
      rw [ih]
      by_cases hy : qy = py
      · by_cases hx : px = cx + n
        · rw [hbit hy hx, Bool.and_false, Bool.or_false]
        · rw [decide_eq_false hx, Bool.false_and, Bool.or_false]
      · rw [decide_eq_false hy, Bool.false_and, Bool.false_and]

theorem erased_drawColumns (b : Byte) (cx py n : Nat) (acc : Framebuffer × Bool) :
    (drawColumns b cx py n acc).2 = true ↔
      acc.2 = true ∨ ∃ px, pixel acc.1 px py = true ∧ columnsCover b cx n px = true := by
  induction n with
  | zero => simp [drawColumns, columnsCover_zero]
  | succ n ih =>
    rw [drawColumns_succ, drawColumn]
    split
    · next hon =>
      have hpixel := pixel_drawColumns b cx py n acc hon.1 hon.2.1
      rw [columnsCover_self, Bool.and_false, Bool.xor_false] at hpixel
      simp only [hpixel, Bool.or_eq_true, ih, columnsCover_succ, hon.2.2, Bool.and_true, decide_eq_true_eq, and_or_left,
        exists_or, exists_eq_right, or_assoc]
    · next hoff =>
      rw [ih]
      refine or_congr Iff.rfl (exists_congr fun px => and_congr_right fun hset => ?_)
      have hlt := lt_of_pixel hset
      have hnew : (decide (px = cx + n) && b.getLsbD (7 - n)) = false := by
        refine Bool.eq_false_iff.mpr fun h => hoff ?_
        obtain ⟨hx, hbit⟩ := Bool.and_eq_true_iff.mp h
        exact ⟨of_decide_eq_true hx ▸ hlt.1, hlt.2, hbit⟩
      rw [columnsCover_succ, hnew, Bool.or_false]

/-- The inner loop draws the row. -/
theorem drawColumns_eq_drawRow (b : Byte) (cx py : Nat) (acc : Framebuffer × Bool) :
    drawColumns b cx py 8 acc = drawRow b cx py acc := by
  refine Prod.ext (framebuffer_ext fun px qy hp hq => ?_) (Bool.eq_iff_iff.mpr ?_)
  · rw [pixel_drawColumns b cx py 8 acc hp hq, pixel_drawRow b cx py acc px qy hq, spriteRow_getMsbD b cx px hp]
    rfl
  · rw [erased_drawColumns, erased_drawRow]
    refine or_congr Iff.rfl (exists_congr fun px => and_congr_right fun hset => ?_)
    rw [spriteRow_getMsbD b cx px (lt_of_pixel hset).1]
    rfl

/-- The double loop draws the rows one by one. -/
theorem drawByPixel_eq_drawRows (cx py : Nat) (rows : List Byte) (acc : Framebuffer × Bool) :
    drawByPixel cx py rows acc = drawRows cx py rows acc := by
  induction rows generalizing py acc with
  | nil => rfl
  | cons b rows ih => rw [drawByPixel, ih, drawRows_cons, ← drawColumns, drawColumns_eq_drawRow]

theorem flagByte_eq_one_iff (f : Bool) : flagByte f = 1 ↔ f = true := by cases f <;> decide

end Sys2Proof.Machine

open Sys2Proof Sys2Proof.Machine

/-- Settles O42: the framebuffer is the blank one, in which no pixel is on. -/
theorem clearScreenClearsEveryPixel : Obligations.ClearScreenClearsEveryPixel :=
  ⟨decode_encode (i := .cls) rfl, fun _ => ⟨_, rfl, fun x y _ _ => pixel_blank x y, rfl⟩⟩

/-- Settles O43: the pixels and the erased flag of the rows drawn; a pixel was erased when it was on and turned over. -/
theorem drawXorsPixels : Obligations.DrawXorsPixels := by
  refine fun x y n s => ⟨decode_encode (i := .drw x y n) rfl, fun hin => ?_, fun hn hout => ?_⟩
  · obtain ⟨drawn, hd⟩ : ∃ drawn, drawn = drawRows (s.getV x).toNat (s.getV y).toNat (s.readBytes s.i.toNat n.val)
        (s.fb, false) := ⟨_, rfl⟩
    have hpixel (px py : Nat) (hx : px < 64) (hy : py < 32) : pixel drawn.1 px py =
        xor (pixel s.fb px py) (spriteCovers s (s.getV x).toNat (s.getV y).toNat n.val px py) := by
      rw [hd, pixel_drawRows _ _ _ _ _ _ hy, rowsCover_readBytes s _ _ _ _ _ hx]
    have hvF : ({ s with fb := drawn.1 }.setV vF (flagByte drawn.2)).getV vF = flagByte drawn.2 := by
      rw [getV_setV, if_pos rfl]
    refine ⟨_, exec_drw_inside s x y n hin hd, hpixel, ?_, ?_, fun r hr => ?_, fun _ => rfl, rfl⟩
    · rw [getV_withStatus, hvF]
      exact flagByte_eq_zero_or_one _
    · rw [getV_withStatus, hvF, flagByte_eq_one_iff]
      subst hd
      exact erased_iff_turned_off _ _ _ _
    · rw [getV_withStatus, getV_setV, if_neg fun h => hr (by simp [h])]
      rfl
  · rw [exec_drw_outside s x y n hn hout]
    exact faulted_raiseFault s (.drw x y n) _

/-- Settles O44: the double loop draws the machine's rows. -/
theorem drawEqualsPixelLoop : Obligations.DrawEqualsPixelLoop := by
  rintro x y n s hin _ rfl
  exact exec_drw_inside s x y n hin (drawByPixel_eq_drawRows _ _ _ _)
end

section
/-! PROOFS. The host's operations (R33, R80, R138, R140, R141): reset, the loading of a ROM, and step_n. -/

namespace Sys2Proof.Machine

variable (s : State)

/-! ### Memory that nothing has written -/

theorem readByte_resetOp (a : Nat) : (resetOp s).readByte a = unlistedByte s.cfg a := rfl

theorem unlistedByte_outside_font {c : Config} {a : Nat}
    (h : a < c.fontBase.toNat ∨ c.fontBase.toNat + 16 * c.glyphBytes ≤ a) :
    unlistedByte c a = 0 :=
  if_neg (by omega)

theorem unlistedByte_font {c : Config} (hc : c.wf = true) {k : Nat} (hk : k < 16 * c.glyphBytes) :
    some (unlistedByte c (c.fontBase.toNat + k)) = c.fontData[k]? := by
  have hlen : k < c.fontData.length := ((config_wf_iff c).mp hc).1 ▸ hk
  rw [unlistedByte, if_pos (by omega), Nat.add_sub_cancel_left, List.getD_eq_getElem _ _ hlen,
    List.getElem?_eq_getElem hlen]

/-- From 0x200 on memory holds zeros until something is written. -/
theorem unlistedByte_program {c : Config} (hc : c.wf = true) {a : Nat} (ha : 0x200 ≤ a) : unlistedByte c a = 0 :=
  unlistedByte_outside_font (.inr (((config_wf_iff c).mp hc).2.trans ha))

/-! ### Loading a ROM -/

theorem loadRom_of_long {bytes : List Byte} (h : 3584 < bytes.length) : loadRom bytes s = (.romTooLarge, s) := if_pos h

theorem loadRom_of_fits {bytes : List Byte} (h : bytes.length ≤ 3584) :
    loadRom bytes s = (.loadOk, (resetOp s).pokeBytes 0x200 bytes) :=
  if_neg (Nat.not_lt.mpr h)

theorem loadRom_eq_loadOk {bytes : List Byte} {t : State} (h : loadRom bytes s = (.loadOk, t)) :
    bytes.length ≤ 3584 ∧ t = (resetOp s).pokeBytes 0x200 bytes := by
  by_cases hlen : bytes.length ≤ 3584
  · rw [loadRom_of_fits s hlen] at h
    cases h
    exact ⟨hlen, rfl⟩
  · rw [loadRom_of_long s (Nat.lt_of_not_le hlen)] at h
    cases h

/-- After a load memory holds the ROM from 0x200 on, and zeros past it. -/
theorem readByte_loadedRom {bytes : List Byte} (hc : s.cfg.wf = true) (hlen : bytes.length ≤ 3584) (k : Nat) :
    ((resetOp s).pokeBytes 0x200 bytes).readByte (0x200 + k) = bytes.getD k 0 := by
  rw [readByte_pokeBytes (resetOp s) 0x200 bytes rfl (.inr (Nat.add_le_add_left hlen 0x200)),
    if_pos (Nat.le_add_right _ _), Nat.add_sub_cancel_left, readByte_resetOp,
    unlistedByte_program hc (Nat.le_add_right _ _)]

/-! ### step_n -/

/-- The first step of a run that is answered: it stops the run, or the rest is run after it. -/
theorem stepNFrom_cons {last : Option StepResult} {count : Nat} {r : Byte} {rs : List Byte} {s t : State}
    (h : stepWith r s = .next t) : stepNFrom last count (r :: rs) s =
      if t.stepResult.stops then .next ⟨some t.stepResult, count + 1, t⟩
      else stepNFrom (some t.stepResult) (count + 1) rs t := by
  rw [stepNFrom, h]

theorem stepWith_of_stepNFrom {last : Option StepResult} {count : Nat} {r : Byte} {rs : List Byte} {s : State}
    {a : StepNAnswer} (h : stepNFrom last count (r :: rs) s = .next a) : ∃ t, stepWith r s = .next t := by
  rw [stepNFrom] at h
  cases hs : stepWith r s with
  | next t => exact ⟨t, rfl⟩
  | fault f | refused f => rw [hs] at h; cases h

/-- What came before a run of steps adds to its count, and is the last result only of an empty run. -/
theorem stepNFrom_shift {last last' : Option StepResult} {count : Nat} {rs : List Byte} {s : State} {a : StepNAnswer}
    (h : stepNFrom last count rs s = .next a) :
    stepNFrom last' (count + 1) rs s = .next ⟨if rs = [] then last' else a.last, a.count + 1, a.state⟩ := by
  induction rs generalizing last last' count s with
  | nil => cases h; rfl
  | cons r rs ih =>
    obtain ⟨t, ht⟩ := stepWith_of_stepNFrom h
    rw [stepNFrom_cons ht] at h ⊢
    rw [if_neg (List.cons_ne_nil r rs)]
    split at h
    · next hstop =>
      cases h
      rw [if_pos hstop]
    · next hgo =>
      rw [if_neg hgo, ih h]
      cases rs with
      | nil => cases h; rfl
      | cons => rfl

/-- A run performs at most one step a draw, and fewer only after a result that stops it. -/
theorem stepNFrom_count {last : Option StepResult} {count : Nat} {rs : List Byte} {s : State} {a : StepNAnswer}
    (h : stepNFrom last count rs s = .next a) :
    a.count ≤ count + rs.length ∧ (a.count < count + rs.length → ∃ q, a.last = some q ∧ q.stops = true) := by
  induction rs generalizing last count s with
  | nil => cases h; exact ⟨le_rfl, fun hlt => absurd hlt (lt_irrefl _)⟩
  | cons r rs ih =>
    obtain ⟨t, ht⟩ := stepWith_of_stepNFrom h
    rw [stepNFrom_cons ht] at h
    rw [List.length_cons, Nat.add_comm rs.length, ← Nat.add_assoc]
    split at h
    · next hstop =>
      cases h
      exact ⟨Nat.le_add_right _ _, fun _ => ⟨_, rfl, hstop⟩⟩
    · exact ih h

end Sys2Proof.Machine

open Sys2Proof Sys2Proof.Machine

/-- Settles O49: the record of `State.resetFor`, and what unlisted memory reads as. -/
theorem resetGivesListedValues : Obligations.ResetGivesListedValues := by
  rintro s hc _ rfl
  exact ⟨fun r => by simp [resetOp, State.resetFor, State.getV], rfl, rfl, rfl,
    fun k => by simp [resetOp, State.resetFor, State.stackSlot], rfl, rfl, fun k hk => unlistedByte_font hc hk,
    fun a ha => unlistedByte_outside_font ha, fun x y _ _ => pixel_blank x y, fun k _ => BitVec.getLsbD_zero, rfl,
    ⟨rfl, rfl⟩, rfl⟩

/-- Settles O50: the two equations of `loadRom`, and the run of stores into a reset machine. -/
theorem loadRomCopiesOrRefuses : Obligations.LoadRomCopiesOrRefuses := by
  refine fun bytes s => ⟨loadRom_of_long s, fun hlen => ?_⟩
  have hin : 0x200 + bytes.length ≤ memSize := Nat.add_le_add_left hlen 0x200
  refine ⟨_, loadRom_of_fits s hlen, fun k hk => ?_, sameMemoryOutside_pokeBytes rfl hin, pokeBytes_frame _ _ _⟩
  rw [readByte_pokeBytes_inside rfl hin hk, List.getElem?_eq_getElem hk]

/-- Settles O51: a loaded machine stands at 0x200 before the ROM's bytes; the zeros of an empty one are SYS. -/
theorem firstFetchAfterLoad : Obligations.FirstFetchAfterLoad := by
  intro bytes s t hc hload
  obtain ⟨hlen, ht⟩ := loadRom_eq_loadOk s hload
  have hh : t.halted = false := by rw [ht, pokeBytes_frame]; rfl
  have hpc : t.pc = 0x200 := by rw [ht, pokeBytes_frame]; rfl
  have hr : t.Runs := ⟨hh, by rw [hpc]; decide⟩
  have hw : t.fetchWord = bytes.getD 0 0 ++ bytes.getD 1 0 := by
    rw [State.fetchWord, hpc, ht]
    exact congrArg₂ wordOfBytes (readByte_loadedRom s hc hlen 0) (readByte_loadedRom s hc hlen 1)
  refine ⟨hr, hw, ?_⟩
  rintro rfl
  have hsys : t.nextInstr = .sys 0x000 := by rw [State.nextInstr, hw]; decide
  refine ⟨_, step_of_faultCause t hh (e := .unimplemented) ⟨hr, .inl ⟨_, hsys⟩⟩, ?_⟩
  rw [stepResult_takeFault, hr.recordedWord, hw, hpc]
  rfl

/-- Settles O54: the equations of a run's first step, and what a run adds to what came before it. -/
theorem stepNStopsAtFirstFault : Obligations.StepNStopsAtFirstFault := by
  refine ⟨fun s => rfl, fun r rs s t ht hlast => ?_, fun r rs s t a ht hgo hne ha => ?_, fun rs s a ha => ?_⟩
  · rw [stepN, stepNFrom_cons ht]
    split
    · rfl
    · next hgo =>
      obtain rfl := hlast.resolve_left hgo
      rfl
  · rw [stepN, stepNFrom_cons ht, hgo, if_neg Bool.false_ne_true, stepNFrom_shift ha, if_neg hne]
  · have h := stepNFrom_count ha
    rwa [Nat.zero_add] at h
end
